-- ==== Sys2Proof/Word.lean ====
section
/-! DEFINITION. The word types of FMD (00_scope.md rule R7): bytes, the i16 and the 32-bit command word. -/

namespace Sys2Proof

/-- `u8` of rule R7. -/
abbrev Byte := BitVec 8

/-- `i16` of rule R7: sixteen bits, read as two's complement with `BitVec.toInt`. -/
abbrev I16 := BitVec 16

/-- The command word `cmd_word[31:0]` (rule R60). -/
abbrev Word := BitVec 32

/-- A channel number 0..8 that has passed the check of rule R23. -/
abbrev Chan := Fin 9

/-- A slot 0..30 of the instrument bank (rule R48). -/
abbrev Slot := Fin 31

/-- An offset 0..10 in an instrument's record (rule R48). -/
abbrev Offset := Fin 11

/-- Store an exact integer into an i16 register (rule R7: a width is applied only where a value is stored). -/
def i16 (x : Int) : I16 := BitVec.ofInt 16 x

/-- The nine channels in ascending order, the order of every loop over channels (rules R98, R130). -/
def allChannels : List Chan := [0, 1, 2, 3, 4, 5, 6, 7, 8]

/-- The eleven offsets in ascending order, the order of rule R90. -/
def allOffsets : List Offset := [0, 1, 2, 3, 4, 5, 6, 7, 8, 9, 10]

end Sys2Proof
end

