-- ==== Sys2Proof/Syntax.lean ====
section
/-! DEFINITION. The ten commands of FMD (30_encoding.md rule R63), one constructor per row of spec/opcode_table.json, with the
operand fields as the word carries them (formats N, L, C, V, I, Z, E: rules R64 to R70). -/

namespace Sys2Proof

/-- A command. The fields hold every value the word can carry; which of them a command refuses, and with which fault code, is its
meaning's business (rule R72). -/
inductive Instr where
  /-- `SETNOTE ch, oct, note`, format N (rule R64). -/
  | setnote (ch : BitVec 4) (oct : BitVec 3) (note : BitVec 4)
  /-- `SETLIN ch, lin`, format L (rule R65); `lin` is read as two's complement. -/
  | setlin (ch : BitVec 4) (lin : BitVec 16)
  /-- `GETLIN ch`, format C (rule R66). -/
  | getlin (ch : BitVec 4)
  /-- `SETVOL ch, level`, format V (rule R67). -/
  | setvol (ch : BitVec 4) (level : BitVec 8)
  /-- `GETVOL ch`, format C (rule R66). -/
  | getvol (ch : BitVec 4)
  /-- `LDINS ins, ch`, format I (rule R68); `ins` is the 0-based bank slot. -/
  | ldins (ins : BitVec 5) (ch : BitVec 4)
  /-- `SILENCE`, format Z (rule R69). -/
  | silence
  /-- `FXCLR`, format Z (rule R69). -/
  | fxclr
  /-- `EVENT ch, oct, note, cmd, param, ins`, format E (rule R70); `ins` is the 1-based instrument number, 0 = none. -/
  | event (ch : BitVec 4) (oct : BitVec 3) (note : BitVec 4) (cmd : BitVec 4) (param : BitVec 8) (ins : BitVec 5)
  /-- `TICK`, format Z (rule R69). -/
  | tick
  deriving DecidableEq, Repr

end Sys2Proof
end

