-- ==== Sys2Proof/Decode.lean ====
section
/-! DEFINITION. The command word (30_encoding.md): the decoder, total on all 2^32 words and rejecting by name (rules R60 to R72,
items 1 and 2), and the encoder written from the same formats (rules R64 to R70). -/

namespace Sys2Proof

/-- Why a word is no command: the first two causes of rule R72. -/
inductive DecodeError where
  /-- `E_ILLEGAL`: the operation code is 0x0 or 0xB..0xF (rule R152). -/
  | illegal
  /-- `E_ENCODING`: a bit that the format reserves is 1 (rules R62, R154). -/
  | encoding
  deriving DecidableEq, Repr

/-- The `len` bits of a word from bit `lo` up. -/
def field (w : Word) (lo len : Nat) : BitVec len := w.extractLsb' lo len

/-- Accept a command only if the `len` reserved bits from bit `lo` up are all 0 (rule R62). -/
def ifReservedZero (w : Word) (lo len : Nat) (i : Instr) : Except DecodeError Instr :=
  if field w lo len = 0 then .ok i else .error .encoding

/-- The command a word with operation code `op` stands for: the opcode map (rule R63) and the formats (rules R64 to R70). -/
def decodeOp (w : Word) (op : Nat) : Except DecodeError Instr :=
  match op with
  | 0x1 => ifReservedZero w 7 17 (.setnote (field w 24 4) (field w 4 3) (field w 0 4))
  | 0x2 => ifReservedZero w 16 8 (.setlin (field w 24 4) (field w 0 16))
  | 0x3 => ifReservedZero w 0 24 (.getlin (field w 24 4))
  | 0x4 => ifReservedZero w 8 16 (.setvol (field w 24 4) (field w 0 8))
  | 0x5 => ifReservedZero w 0 24 (.getvol (field w 24 4))
  | 0x6 => ifReservedZero w 5 19 (.ldins (field w 0 5) (field w 24 4))
  | 0x7 => ifReservedZero w 0 28 .silence
  | 0x8 => ifReservedZero w 0 28 .fxclr
  | 0x9 => .ok (.event (field w 24 4) (field w 21 3) (field w 17 4) (field w 8 4) (field w 0 8) (field w 12 5))
  | 0xA => ifReservedZero w 0 28 .tick
  | _ => .error .illegal

/-- The command a word stands for (rules R61 to R71). The operation code is bits 31:28, the channel bits 27:24. -/
def decode (w : Word) : Except DecodeError Instr := decodeOp w (field w 28 4).toNat

/-- The word as a number: each field times the weight of its lowest bit (rules R64 to R70). -/
def encodeNat : Instr → Nat
  | .setnote ch oct note => 0x10000000 + ch.toNat * 2 ^ 24 + oct.toNat * 2 ^ 4 + note.toNat
  | .setlin ch lin => 0x20000000 + ch.toNat * 2 ^ 24 + lin.toNat
  | .getlin ch => 0x30000000 + ch.toNat * 2 ^ 24
  | .setvol ch level => 0x40000000 + ch.toNat * 2 ^ 24 + level.toNat
  | .getvol ch => 0x50000000 + ch.toNat * 2 ^ 24
  | .ldins ins ch => 0x60000000 + ch.toNat * 2 ^ 24 + ins.toNat
  | .silence => 0x70000000
  | .fxclr => 0x80000000
  | .event ch oct note cmd param ins => 0x90000000 + ch.toNat * 2 ^ 24 + oct.toNat * 2 ^ 21 + note.toNat * 2 ^ 17
      + ins.toNat * 2 ^ 12 + cmd.toNat * 2 ^ 8 + param.toNat
  | .tick => 0xA0000000

/-- The command word of a command (rules R64 to R70). -/
def encode (i : Instr) : Word := BitVec.ofNat 32 (encodeNat i)

/-- The word of an opcode-table row: the low `nbits` bits are `w`, the bits above are 0. The word is a parallel value, so no byte
order enters (20_memory.md rule R51). -/
def tableWord (nbits w : Nat) : Word := BitVec.ofNat 32 (w % 2 ^ nbits)

/-- What the decoder reads from a row of spec/opcode_table.json. -/
def decodeTableWord (nbits w : Nat) : Option Instr := (decode (tableWord nbits w)).toOption

end Sys2Proof
end

