-- ==== Sys2Proof/Config.lean ====
section
/-! DEFINITION. What an implementation fixes: the open parameter record `P` (00_scope.md rules R5, R6) as a plain record, the
reference record REF of rule R5, and the two values that the spec leaves open and that have no body here. -/

namespace Sys2Proof

/-- The chip registers FMD writes, 9 + 9 + 99 = 117 of them (20_memory.md rule R42). -/
inductive ChipReg where
  /-- The frequency-low register of a channel. -/
  | flo (c : Chan)
  /-- The frequency-high register of a channel. -/
  | fhi (c : Chan)
  /-- The register that instrument byte `i` is written to for a channel. -/
  | ins (i : Offset) (c : Chan)
  deriving DecidableEq, Repr

/-- All 117 chip registers of rule R42. -/
def ChipReg.all : List ChipReg :=
  allChannels.map .flo ++ allChannels.map .fhi ++ allOffsets.flatMap (fun i => allChannels.map (.ins i))

/-- The parameter record `P` of rule R5, without `T_SETTLE` (see `Config.settleDelay`). Each field is named after its parameter. -/
structure Params where
  /-- `OCTAVE_SPAN`: linear units per octave. -/
  octaveSpan : Nat
  /-- `BASE_FNUM`: the frequency number of linear offset 0 of an octave. -/
  baseFnum : Nat
  /-- `NOTE_FNUM[n]`, n = 1..12, kept at index n - 1. -/
  noteFnums : Vector (BitVec 10) 12
  /-- `A_FLO(ch)`. -/
  aFlo : Vector Byte 9
  /-- `A_FHI(ch)`. -/
  aFhi : Vector Byte 9
  /-- `A_INS(i, ch)`, row i, column ch. -/
  aIns : Vector (Vector Byte 9) 11
  /-- `INS_CARRIER_LEVEL_IDX`. -/
  carrierIdx : Offset
  /-- `A_VOL(ch)`. -/
  aVol : Vector Byte 9
  /-- `CMD_PORTA_UP`. -/
  cmdPortaUp : BitVec 4
  /-- `CMD_PORTA_DN`. -/
  cmdPortaDn : BitVec 4
  /-- `CMD_TONESLIDE`. -/
  cmdToneSlide : BitVec 4
  /-- `CMD_TONEVOL`. -/
  cmdToneVol : BitVec 4
  /-- `CMD_VOLSLIDE`. -/
  cmdVolSlide : BitVec 4
  /-- `CMD_SETVOL`. -/
  cmdSetVol : BitVec 4
  /-- `CMD_JUMPLINE`. -/
  cmdJumpLine : BitVec 4
  /-- `CMD_SETSPEED`. -/
  cmdSetSpeed : BitVec 4
  /-- `VOLSLIDE_MID`. -/
  volSlideMid : Nat
  deriving DecidableEq, Repr

/-- `NOTE_FNUM` of the note with index `n` (note value n + 1). -/
def Params.noteFnum (P : Params) (n : Fin 12) : BitVec 10 := P.noteFnums[n]

/-- `A_FLO(ch)`. -/
def Params.floAddr (P : Params) (c : Chan) : Byte := P.aFlo[c]

/-- `A_FHI(ch)`. -/
def Params.fhiAddr (P : Params) (c : Chan) : Byte := P.aFhi[c]

/-- `A_INS(i, ch)`. -/
def Params.insAddr (P : Params) (i : Offset) (c : Chan) : Byte := (P.aIns[i])[c]

/-- `A_VOL(ch)`. -/
def Params.volAddr (P : Params) (c : Chan) : Byte := P.aVol[c]

/-- The chip address of a register. -/
def Params.addr (P : Params) : ChipReg → Byte
  | .flo c => P.floAddr c
  | .fhi c => P.fhiAddr c
  | .ins i c => P.insAddr i c

/-- The eight command ids, in the order of rule R5. -/
def Params.cmdIds (P : Params) : List (BitVec 4) :=
  [P.cmdPortaUp, P.cmdPortaDn, P.cmdToneSlide, P.cmdToneVol, P.cmdVolSlide, P.cmdSetVol, P.cmdJumpLine, P.cmdSetSpeed]

/-- Rule R6: the constraints (a) to (f). The rules of the spec are stated for admissible records only. -/
def Params.admissible (P : Params) : Bool :=
  decide (1 ≤ P.octaveSpan) && decide (P.baseFnum + P.octaveSpan ≤ 1024)
    && P.noteFnums.toList.all (fun f => decide (P.baseFnum ≤ f.toNat) && decide (f.toNat < P.baseFnum + P.octaveSpan))
    && decide (ChipReg.all.map P.addr).Nodup
    && allChannels.all (fun c => decide (P.volAddr c = P.insAddr P.carrierIdx c))
    && decide (P.cmdIds.Nodup) && decide (0 ∉ P.cmdIds)
    && decide (1 ≤ P.volSlideMid) && decide (P.volSlideMid ≤ 255)

/-- The reference record REF of rule R5, used by 95_test_vectors.md; its values are the spec's general knowledge, no rule depends on
them (DESIGN CHOICE, log 1: `State.reset` holds it; unsafe for a claim about `State.reset` alone). The rows of `aIns` are the
columns of the table of rule R42. -/
def Config.refParams : Params where
  octaveSpan := 345
  baseFnum := 0x156
  noteFnums := #v[0x16B, 0x181, 0x198, 0x1B0, 0x1CA, 0x1E5, 0x202, 0x220, 0x241, 0x263, 0x287, 0x2AE]
  aFlo := #v[0xA0, 0xA1, 0xA2, 0xA3, 0xA4, 0xA5, 0xA6, 0xA7, 0xA8]
  aFhi := #v[0xB0, 0xB1, 0xB2, 0xB3, 0xB4, 0xB5, 0xB6, 0xB7, 0xB8]
  aIns := #v[#v[0x23, 0x24, 0x25, 0x2B, 0x2C, 0x2D, 0x33, 0x34, 0x35],
    #v[0x20, 0x21, 0x22, 0x28, 0x29, 0x2A, 0x30, 0x31, 0x32],
    #v[0x43, 0x44, 0x45, 0x4B, 0x4C, 0x4D, 0x53, 0x54, 0x55],
    #v[0x40, 0x41, 0x42, 0x48, 0x49, 0x4A, 0x50, 0x51, 0x52],
    #v[0x63, 0x64, 0x65, 0x6B, 0x6C, 0x6D, 0x73, 0x74, 0x75],
    #v[0x60, 0x61, 0x62, 0x68, 0x69, 0x6A, 0x70, 0x71, 0x72],
    #v[0x83, 0x84, 0x85, 0x8B, 0x8C, 0x8D, 0x93, 0x94, 0x95],
    #v[0x80, 0x81, 0x82, 0x88, 0x89, 0x8A, 0x90, 0x91, 0x92],
    #v[0xC0, 0xC1, 0xC2, 0xC3, 0xC4, 0xC5, 0xC6, 0xC7, 0xC8],
    #v[0xE3, 0xE4, 0xE5, 0xEB, 0xEC, 0xED, 0xF3, 0xF4, 0xF5],
    #v[0xE0, 0xE1, 0xE2, 0xE8, 0xE9, 0xEA, 0xF0, 0xF1, 0xF2]]
  carrierIdx := 2
  aVol := #v[0x43, 0x44, 0x45, 0x4B, 0x4C, 0x4D, 0x53, 0x54, 0x55]
  cmdPortaUp := 1
  cmdPortaDn := 2
  cmdToneSlide := 3
  cmdToneVol := 5
  cmdVolSlide := 10
  cmdSetVol := 12
  cmdJumpLine := 13
  cmdSetSpeed := 15
  volSlideMid := 50

/-- A byte of the instrument bank, by byte address, that no module has filled: unconstrained (20_memory.md rule R48,
93_implementation_defined.md U8). A FREE VALUE: it has no body, so nothing can be proved of it (log 2). Safe. -/
opaque Config.undefinedBankByte : Nat → Byte

/-- `T_SETTLE` (rule R5), the chip's settling delay: no value in the spec and no rule reads it (R43, R179; log 5). Safe. -/
opaque Config.settleDelay : Nat

end Sys2Proof
end

