-- ==== Sys2Proof/Machine/State.lean ====
section
/-! DEFINITION. The state of FMD as plain data (10_state.md), the reasons a step can stop, and the state right after reset
(70_reset_and_hazards.md rules R170, R171). -/

namespace Sys2Proof.Machine

/-- Why the machine would stop. The spec gives FMD nothing that stops it: every command ends (rule R8) and every one of its five fault
codes is reported in a response after which the next command executes (rule R151). So this type has no constructor, nobody raises
a fault, and that is safe: nothing is claimed of a stopped machine. -/
inductive Fault
  deriving DecidableEq, Repr

/-- Why an instruction has no meaning here. -/
inductive Refusal where
  /-- Raised by `exec` alone, in the arm of an instruction that has no meaning yet; no arm does so now. Safe. -/
  | notModelled (mnemonic : String)
  deriving DecidableEq, Repr

/-- The value of `rsp.err` by name (60_exceptions.md rule R150). The codes 6..15 are never produced, so they have no name. -/
inductive Err where
  /-- 0: the command executed. -/
  | none
  /-- 1, `E_ILLEGAL` (rule R152). -/
  | illegal
  /-- 2, `E_ENCODING` (rule R154). -/
  | encoding
  /-- 3, `E_CHANNEL` (rule R153). -/
  | channel
  /-- 4, `E_OPERAND` (rule R155). -/
  | operand
  /-- 5, `E_NOTE` (rule R156). -/
  | note
  deriving DecidableEq, Repr

/-- The response record `rsp` of one command (10_state.md rule R28). -/
structure Response where
  /-- `rsp.err`. -/
  err : Err
  /-- `rsp.data`, an i16. -/
  data : I16
  /-- `rsp.jump`, 0..256. -/
  jump : BitVec 9
  /-- `rsp.speed_valid`. -/
  speedValid : Bool
  /-- `rsp.speed`. -/
  speed : Byte
  deriving DecidableEq, Repr

/-- The eight registers of one channel (10_state.md rule R10). -/
structure Channel where
  /-- `FLO[ch]`, shadow of the frequency-low register (rule R17). -/
  flo : Byte
  /-- `FHI[ch]`, shadow of the frequency-high register: KON bit 5, OCT bits 4:2, FNH bits 1:0 (rule R18). -/
  fhi : Byte
  /-- `VOL[ch]`, shadow of the volume register: KSL bits 7:6, ATT bits 5:0 (rule R19). -/
  vol : Byte
  /-- `PORTA[ch]`, the portamento delta (rule R11). -/
  porta : I16
  /-- `TSTGT[ch]`, the tone-slide target (rule R12). -/
  tstgt : I16
  /-- `TSSTEP[ch]`, the tone-slide step (rule R13). -/
  tsstep : Byte
  /-- `TSACT[ch]`, the tone-slide active flag (rule R14). -/
  tsact : Bool
  /-- `VSL[ch]`, the volume-slide delta (rule R15). -/
  vsl : I16
  deriving DecidableEq, Repr

/-- A byte memory in canonical form: addresses strictly rising; an address that is not listed has no value. -/
abbrev Mem := List Host.Cell

/-- What the host does next at FMD's inputs (10_state.md rules R29, R32; 20_memory.md rule R55). -/
inductive HostInput where
  /-- Present a word on the command port (`cmd_valid = 1`) until it is accepted. -/
  | command (w : Word)
  /-- Drive the reset input to a level. -/
  | rst (level : Bool)
  /-- Put a byte into the instrument bank, at an offset of a slot. -/
  | bankByte (slot : Slot) (off : Offset) (b : Byte)
  deriving DecidableEq, Repr

/-- FMD's state: the nine channels (rule R10), what it has put out (rule R9), and the inputs a step reads. -/
structure State where
  /-- The parameter record `P` (00_scope.md rule R5), an input that no step changes (log 1). -/
  params : Params
  /-- The instrument bank by byte address `idx * 11 + i` (20_memory.md rules R48, R49), an input (log 2). -/
  bank : Mem
  /-- The nine channels. -/
  chans : Vector Channel 9
  /-- `W`: every `ChipWrite` since reset, oldest first (rules R9, R41). -/
  trace : List (Byte × Byte)
  /-- `CHIP`: the last byte written to each chip address since reset (rules R20, R41; log 3). -/
  chip : Mem
  /-- One response per command, oldest first (rules R9, R28; log 6). -/
  responses : List Response
  /-- The reset input (rule R32). -/
  rst : Bool
  /-- What the host does next, oldest first (log 4). -/
  pending : List HostInput
  deriving DecidableEq, Repr

/-- A channel's registers at reset (rule R171). -/
def Channel.reset : Channel where
  flo := 0x00
  fhi := 0x00
  vol := 0x00
  porta := 0
  tstgt := 0
  tsstep := 0
  tsact := false
  vsl := 0

/-- The block right after reset, for any parameter record and any instrument bank (rules R170, R171). -/
def State.resetWith (P : Params) (bank : Mem) : State where
  params := P
  bank := bank
  chans := Vector.replicate 9 Channel.reset
  trace := []
  chip := []
  responses := []
  rst := false
  pending := []

/-- The machine right after reset: the reference parameters and a bank no module has filled (DESIGN CHOICE, log 1, 2 and 4: the
parameters and the bank are not reset by anything; unsafe for a claim about this one state, so claims about reset are stated of
`State.resetWith`). -/
def State.reset : State := State.resetWith Config.refParams []

end Sys2Proof.Machine
end

