-- ==== Sys2Proof/Machine/Flags.lean ====
section
/-! DEFINITION. The flags of FMD (10_state.md rules R14, R16, R18, R25): the key-on bit inside `FHI`, the tone-slide flag `TSACT`, and
when an effect is armed. -/

namespace Sys2Proof.Machine

/-- The key-on bit `KON`, bit 5 of `FHI` (rule R18). -/
def Channel.keyOn (r : Channel) : Bool := r.fhi.getLsbD 5

/-- `FHI` with the key-on bit cleared and the pitch bits kept (rule R84). -/
def fhiKeyedOff (fhi : Byte) : Byte := fhi &&& 0x1F

/-- Portamento is armed exactly when `PORTA` is not 0 (rule R16). -/
def Channel.portaArmed (r : Channel) : Bool := decide (r.porta ≠ 0)

/-- The tone slide is armed exactly when `TSACT` is 1 (rule R16). -/
def Channel.toneArmed (r : Channel) : Bool := r.tsact

/-- The volume slide is armed exactly when `VSL` is not 0 (rule R16). -/
def Channel.volArmed (r : Channel) : Bool := decide (r.vsl ≠ 0)

/-- `TSACT <- 1` (rules R114, R118). -/
def Channel.armTone (r : Channel) : Channel := { r with tsact := true }

/-- `TSACT <- 0` on arrival (rule R132). -/
def Channel.disarmTone (r : Channel) : Channel := { r with tsact := false }

/-- All three effects disarmed, target and step kept (rule R110). -/
def Channel.disarmAll (r : Channel) : Channel := { r with porta := 0, tsact := false, vsl := 0 }

end Sys2Proof.Machine
end

