-- ==== Sys2Proof/Machine/Operands.lean ====
section
/-! DEFINITION. What an operand field names, and the conversions between register fields and integers: 30_encoding.md rules R64 to
R71, 40_driver.md rules R80, R81, R86, R87, 41_event.md rule R112. -/

namespace Sys2Proof.Machine

/-- The channel a 4-bit field names; 9..15 name none (rule R23). -/
def channelOf (ch : BitVec 4) : Option Chan := if h : ch.toNat < 9 then some ⟨ch.toNat, h⟩ else none

/-- The bank slot of LDINS's 0-based field; 31 names none (rule R68). -/
def slotOf (ins : BitVec 5) : Option Slot := if h : ins.toNat < 31 then some ⟨ins.toNat, h⟩ else none

/-- The bank slot of EVENT's 1-based field: 0 is no instrument, `k` is slot `k - 1` (rule R70). -/
def slotOfNumber (ins : BitVec 5) : Option Slot :=
  if ins.toNat = 0 then none else some ⟨ins.toNat - 1, by omega⟩

/-- A note value names a note: 1..12 (rule R4), the index into `NOTE_FNUM` being one less. -/
def noteIndex (note : BitVec 4) : Option (Fin 12) :=
  if h : 1 ≤ note.toNat ∧ note.toNat ≤ 12 then some ⟨note.toNat - 1, by omega⟩ else none

/-- `floor_div` of rule R7: for a positive divisor Lean's integer division is the floor. -/
def floorDiv (a b : Int) : Int := a / b

/-- `floor_mod` of rule R7. -/
def floorMod (a b : Int) : Int := a - floorDiv a b * b

/-- `toLinear(oct, fnum)` (rule R80). -/
def toLinear (P : Params) (oct : BitVec 3) (fnum : BitVec 10) : Int :=
  (oct.toNat : Int) * P.octaveSpan + fnum.toNat - P.baseFnum

/-- `fromLinear(lin)` (rule R81): floor division by the span, the octave modulo 8. -/
def fromLinear (P : Params) (lin : Int) : BitVec 3 × BitVec 10 :=
  let q := floorDiv lin P.octaveSpan
  let r := floorMod lin P.octaveSpan
  (BitVec.ofInt 3 (floorMod q 8), BitVec.ofInt 10 (r + P.baseFnum))

/-- `OCT`, bits 4:2 of `FHI` (rule R18). -/
def Channel.oct (r : Channel) : BitVec 3 := r.fhi.extractLsb' 2 3

/-- The 10-bit frequency number: bits 1:0 of `FHI` above `FLO` (rule R18). -/
def Channel.fnum (r : Channel) : BitVec 10 := r.fhi.extractLsb' 0 2 ++ r.flo

/-- `f[7:0]`, the part of a frequency number that `FLO` holds (rule R17). -/
def fnumLow (f : BitVec 10) : Byte := f.extractLsb' 0 8

/-- `(oct << 2) | f[9:8]`, the pitch bits of `FHI`, with the key-on bit and bits 7:6 zero (rule R18). -/
def pitchHigh (oct : BitVec 3) (f : BitVec 10) : Byte := (oct.setWidth 8 <<< 2) ||| (f.extractLsb' 8 2).setWidth 8

/-- `getLin` of one channel's shadow (rule R86). -/
def Channel.linear (P : Params) (r : Channel) : Int := toLinear P r.oct r.fnum

/-- `getVol` of one channel's shadow (rule R87): 63 minus the attenuation bits. -/
def Channel.level (r : Channel) : Nat := 63 - (r.vol.extractLsb' 0 6).toNat

/-- The byte `setVol` stores for a level: the scaling bits kept, the level clamped to 63 and inverted (rule R88). -/
def volWithLevel (vol : Byte) (level : Nat) : Byte := (vol &&& 0xC0) ||| BitVec.ofNat 8 (63 - min level 63)

/-- `volDelta(p)` (rule R112). -/
def volDelta (P : Params) (p : Byte) : Int :=
  if p.toNat < P.volSlideMid then -(p.toNat : Int) else (p.toNat : Int) - P.volSlideMid

end Sys2Proof.Machine
end

