-- ==== Sys2Proof/Machine/Ops.lean ====
section
/-! DEFINITION. The named operations over the state: memories, registers, `ChipWrite`, `InsRead`, the response, the fault
(60_exceptions.md rule R151), the internal procedures of 40_driver.md (rules R83 to R91), and the ports (10_state.md rules R29, R32). -/

namespace Sys2Proof.Machine

/-- The value a memory holds at an address; none where nothing is listed. -/
def Mem.read (a : Nat) : Mem → Option Byte
  | [] => none
  | c :: m => if c.1 = a then some c.2 else Mem.read a m

/-- Store a byte, keeping the addresses strictly rising. -/
def Mem.write (a : Nat) (b : Byte) : Mem → Mem
  | [] => [(a, b)]
  | c :: m => if a < c.1 then (a, b) :: c :: m else if a = c.1 then (a, b) :: m else c :: Mem.write a b m

/-- The canonical form of a memory of `size` bytes: addresses strictly rising and below `size`. -/
def Mem.wf (size : Nat) : Mem → Bool
  | [] => true
  | c :: m => decide (c.1 < size) && m.all (fun d => decide (c.1 < d.1)) && Mem.wf size m

/-- A channel's registers (rule R7, `R[ch]`). -/
def State.chan (s : State) (c : Chan) : Channel := s.chans[c]

/-- Replace a channel's registers (rule R7, `R[ch] <- v`). -/
def State.setChan (s : State) (c : Chan) (r : Channel) : State := { s with chans := s.chans.set c r }

/-- `ChipWrite(a, d)` (20_memory.md rule R41): append to `W` and set `CHIP[a]`. -/
def State.chipWrite (s : State) (a d : Byte) : State :=
  { s with trace := s.trace ++ [(a, d)], chip := Mem.write a.toNat d s.chip }

/-- The byte address of an instrument byte (rule R49). -/
def bankAddr (idx : Slot) (i : Offset) : Nat := idx.val * 11 + i.val

/-- `InsRead(idx, i)` (rule R48); a byte that no module has filled is a free value (U8, log 2). -/
def State.insRead (s : State) (idx : Slot) (i : Offset) : Byte :=
  (Mem.read (bankAddr idx i) s.bank).getD (Config.undefinedBankByte (bankAddr idx i))

/-- The value of `rsp.err` as the 4-bit code (rule R150). -/
def Err.code : Err → BitVec 4
  | .none => 0
  | .illegal => 1
  | .encoding => 2
  | .channel => 3
  | .operand => 4
  | .note => 5

/-- The response of a command that drives no field (rule R28). -/
def Response.ok : Response := { err := .none, data := 0, jump := 0, speedValid := false, speed := 0 }

/-- The response of a faulting command: the code, every other field 0 (rule R151). -/
def Response.fault (e : Err) : Response := { Response.ok with err := e }

/-- The command ends with this response (rule R28). -/
def State.respond (s : State) (r : Response) : State := { s with responses := s.responses ++ [r] }

/-- A command that executed (rule R8). -/
def finish (r : Response) (s : State) : Host.Outcome State Fault Refusal := .next (s.respond r)

/-- `raise <Fault>` (rules R7, R151): no register changes, nothing is written, the code is in the response, and the machine goes on.
There is no trap entry and nothing to return from (rules R159, R160). -/
def raise (e : Err) (s : State) : Host.Outcome State Fault Refusal := .next (s.respond (Response.fault e))

/-- The first check of every per-channel command: `if ch > 8: raise E_CHANNEL` (rule R153). -/
def withChannel (ch : BitVec 4) (s : State) (k : Chan → Host.Outcome State Fault Refusal) :
    Host.Outcome State Fault Refusal :=
  match channelOf ch with
  | some c => k c
  | none => raise .channel s

/-- `FLO[ch] <- lo; FHI[ch] <- hi` and the two writes, low register first (rules R83, R85). -/
def writeFrequency (c : Chan) (lo hi : Byte) (s : State) : State :=
  ((s.setChan c { s.chan c with flo := lo, fhi := hi }).chipWrite (s.params.floAddr c) lo).chipWrite (s.params.fhiAddr c) hi

/-- `noteOn(ch, oct, n)` (rule R83). -/
def noteOn (c : Chan) (oct : BitVec 3) (n : Fin 12) (s : State) : State :=
  writeFrequency c (fnumLow (s.params.noteFnum n)) (0x20 ||| pitchHigh oct (s.params.noteFnum n)) s

/-- `keyOff(ch)` (rule R84). -/
def keyOff (c : Chan) (s : State) : State :=
  (s.setChan c { s.chan c with fhi := fhiKeyedOff (s.chan c).fhi }).chipWrite (s.params.fhiAddr c) (fhiKeyedOff (s.chan c).fhi)

/-- `setNote`: a note 1..12 is triggered, every other value is a key-off (rules R92, R115; the callers exclude 0). -/
def setNote (c : Chan) (oct : BitVec 3) (note : BitVec 4) (s : State) : State :=
  match noteIndex note with
  | some n => noteOn c oct n s
  | none => keyOff c s

/-- `getLin(ch)` (rule R86). -/
def getLin (c : Chan) (s : State) : Int := (s.chan c).linear s.params

/-- `setLin(ch, lin)` (rule R85): the key-on bit is kept. -/
def setLin (c : Chan) (lin : Int) (s : State) : State :=
  let p := fromLinear s.params lin
  writeFrequency c (fnumLow p.2) (((s.chan c).fhi &&& 0x20) ||| pitchHigh p.1 p.2) s

/-- `getVol(ch)` (rule R87). -/
def getVol (c : Chan) (s : State) : Nat := (s.chan c).level

/-- `VOL[ch] <- v` and its write to `A_VOL(ch)` (rule R88). -/
def setVol (c : Chan) (level : Nat) (s : State) : State :=
  let v := volWithLevel (s.chan c).vol level
  (s.setChan c { s.chan c with vol := v }).chipWrite (s.params.volAddr c) v

/-- Write instrument byte `i` of a slot to its chip register (rule R91, one turn of the loop). -/
def writeInsByte (idx : Slot) (c : Chan) (s : State) (i : Offset) : State :=
  s.chipWrite (s.params.insAddr i c) (s.insRead idx i)

/-- `loadIns(idx, ch)` (rules R90, R91): eleven writes in ascending index, then the shadow volume is the whole carrier level byte. -/
def loadIns (idx : Slot) (c : Chan) (s : State) : State :=
  let t := allOffsets.foldl (writeInsByte idx c) s
  t.setChan c { t.chan c with vol := s.insRead idx s.params.carrierIdx }

/-- `cmd_ready` between commands: 1 unless the block is held in reset (rules R29, R170). -/
def State.cmdReady (s : State) : Bool := !s.rst

/-- What holding `rst` at 1 leaves: every register at its reset value, `W` empty, nothing written to the chip since reset (rules R170,
R172). Parameters and bank are not reset (R171); responses already given stay given (log 6). -/
def State.applyReset (s : State) : State :=
  { s with chans := Vector.replicate 9 Channel.reset, trace := [], chip := [] }

/-- While `rst` is 1 the registers are held at their reset values (rule R170). -/
def State.held (s : State) : State := if s.rst then s.applyReset else s

/-- The host drives `rst` to a level (rules R32, R170). -/
def State.driveRst (level : Bool) (s : State) : State := { s with rst := level }

/-- The host puts a byte into the bank (rule R55): later reads return it, nothing else is affected. -/
def State.loadBankByte (slot : Slot) (off : Offset) (b : Byte) (s : State) : State :=
  { s with bank := Mem.write (bankAddr slot off) b s.bank }

/-- Present a word on the command port before everything else the host does. -/
def State.present (w : Word) (s : State) : State := { s with pending := .command w :: s.pending }

/-- One turn at the ports (rules R29, R32, R55, R170): an accepted command word, if there is one, and the state it meets. With nothing
to do the block idles and keeps all state (rule R163). DESIGN CHOICE (log 4): inputs are taken strictly in their order, so a command
presented while `rst` is 1 waits, and while it waits no input behind it is taken, neither a bank byte nor a fall of `rst`: in such a
list `rst` cannot fall any more. A host that holds a word up until `rst` falls is the list with `.rst false` before the word. -/
def portTurn (s : State) : Option Word × State :=
  match s.pending with
  | [] => (none, s.held)
  | .rst level :: rest => (none, { s.held.driveRst level with pending := rest }.held)
  | .bankByte slot off b :: rest => (none, { s.held.loadBankByte slot off b with pending := rest })
  | .command w :: rest => if s.cmdReady then (some w, { s with pending := rest }) else (none, s.held)

/-- The fault code of a word that decodes to no command (rules R72, R150). -/
def errOf : DecodeError → Err
  | .illegal => .illegal
  | .encoding => .encoding

end Sys2Proof.Machine
end

