-- ==== Sys2Proof/Machine/Driver.lean ====
section
/-! DEFINITION. The seven driver commands (40_driver.md rules R92 to R98). -/

namespace Sys2Proof.Machine

/-- `SETNOTE ch, oct, note` (rule R92). -/
def execSetnote (ch : BitVec 4) (oct : BitVec 3) (note : BitVec 4) (s : State) : Host.Outcome State Fault Refusal :=
  withChannel ch s fun c => if note = 0 then raise .operand s else finish .ok (setNote c oct note s)

/-- `SETLIN ch, lin` (rule R93), the operand being `sext_16(lin)`. -/
def execSetlin (ch : BitVec 4) (lin : BitVec 16) (s : State) : Host.Outcome State Fault Refusal :=
  withChannel ch s fun c => finish .ok (setLin c lin.toInt s)

/-- `GETLIN ch` (rule R94). -/
def execGetlin (ch : BitVec 4) (s : State) : Host.Outcome State Fault Refusal :=
  withChannel ch s fun c => finish { Response.ok with data := i16 (getLin c s) } s

/-- `SETVOL ch, level` (rule R95). -/
def execSetvol (ch : BitVec 4) (level : BitVec 8) (s : State) : Host.Outcome State Fault Refusal :=
  withChannel ch s fun c => finish .ok (setVol c level.toNat s)

/-- `GETVOL ch` (rule R96). -/
def execGetvol (ch : BitVec 4) (s : State) : Host.Outcome State Fault Refusal :=
  withChannel ch s fun c => finish { Response.ok with data := i16 (getVol c s) } s

/-- `LDINS ins, ch` (rule R97), the operand being the 0-based slot. -/
def execLdins (ins : BitVec 5) (ch : BitVec 4) (s : State) : Host.Outcome State Fault Refusal :=
  withChannel ch s fun c =>
    match slotOf ins with
    | some idx => finish .ok (loadIns idx c s)
    | none => raise .operand s

/-- `SILENCE` (rule R98): nine key-offs, channels ascending. -/
def execSilence (s : State) : Host.Outcome State Fault Refusal :=
  finish .ok (allChannels.foldl (fun t c => keyOff c t) s)

end Sys2Proof.Machine
end

