-- ==== Sys2Proof/Machine/Effects.lean ====
section
/-! DEFINITION. The effects step TICK (42_effects.md rules R130 to R136). -/

namespace Sys2Proof.Machine

/-- Portamento on one channel (rule R131). -/
def portamento (c : Chan) (s : State) : State :=
  if (s.chan c).portaArmed then setLin c (getLin c s + (s.chan c).porta.toInt) s else s

/-- `TSACT[ch] <- 0` (rule R132). -/
def disarmTone (c : Chan) (s : State) : State := s.setChan c (s.chan c).disarmTone

/-- Tone slide on one channel (rule R132): toward the target by the step, clamped to it on arrival. -/
def toneSlide (c : Chan) (s : State) : State :=
  let cur := getLin c s
  let tgt := (s.chan c).tstgt.toInt
  let step : Int := (s.chan c).tsstep.toNat
  if (s.chan c).toneArmed then
    if cur = tgt then disarmTone c s
    else if cur < tgt then
      if cur + step ≥ tgt then setLin c tgt (disarmTone c s) else setLin c (cur + step) s
    else
      if cur - step ≤ tgt then setLin c tgt (disarmTone c s) else setLin c (cur - step) s
  else s

/-- Volume slide on one channel (rule R133): clamped at 0 here and at 63 by `setVol`. -/
def volumeSlide (c : Chan) (s : State) : State :=
  if (s.chan c).volArmed then setVol c ((getVol c s : Int) + (s.chan c).vsl.toInt).toNat s else s

/-- The three effects of one channel in the order of rule R130. -/
def tickChannel (s : State) (c : Chan) : State := volumeSlide c (toneSlide c (portamento c s))

/-- `TICK` (rule R134). -/
def execTick (s : State) : Host.Outcome State Fault Refusal := finish .ok (allChannels.foldl tickChannel s)

end Sys2Proof.Machine
end

