-- ==== Sys2Proof/Machine/Line.lean ====
section
/-! DEFINITION. The line commands FXCLR and EVENT (41_event.md rules R110 to R125). -/

namespace Sys2Proof.Machine

/-- `FXCLR` (rule R110): every effect disarmed on all channels; targets and steps kept; no write. -/
def execFxclr (s : State) : Host.Outcome State Fault Refusal :=
  finish .ok (allChannels.foldl (fun t c => t.setChan c (t.chan c).disarmAll) s)

/-- The slide-to-note branch (rule R114): target, flag, and the step unless `param` is 0; no write. -/
def slideToNote (c : Chan) (oct : BitVec 3) (n : Fin 12) (param : Byte) (s : State) : State :=
  let r := (s.chan c).armTone
  s.setChan c { r with
    tstgt := i16 (toLinear s.params oct (s.params.noteFnum n))
    tsstep := if param ≠ 0 then param else r.tsstep }

/-- The note-trigger branch (rule R115): key-off, then the instrument if one is named, then the note. -/
def triggerNote (c : Chan) (oct : BitVec 3) (note : BitVec 4) (ins : BitVec 5) (s : State) : State :=
  let t := keyOff c s
  setNote c oct note (match slotOfNumber ins with
    | some idx => loadIns idx c t
    | none => t)

/-- The command dispatch (rules R116 to R124): the state after it and what it reports. -/
def dispatchCommand (c : Chan) (cmd : BitVec 4) (param : Byte) (s : State) : Host.Outcome State Fault Refusal :=
  if cmd = s.params.cmdPortaUp then finish .ok (s.setChan c { s.chan c with porta := i16 param.toNat })
  else if cmd = s.params.cmdPortaDn then finish .ok (s.setChan c { s.chan c with porta := i16 (-(param.toNat : Int)) })
  else if cmd = s.params.cmdToneVol then finish .ok (s.setChan c { (s.chan c).armTone with vsl := i16 (volDelta s.params param) })
  else if cmd = s.params.cmdVolSlide then finish .ok (s.setChan c { s.chan c with vsl := i16 (volDelta s.params param) })
  else if cmd = s.params.cmdSetVol then finish .ok (setVol c param.toNat s)
  else if cmd = s.params.cmdJumpLine then finish { Response.ok with jump := BitVec.ofNat 9 (1 + param.toNat) } s
  else if cmd = s.params.cmdSetSpeed then finish { Response.ok with speedValid := true, speed := param } s
  else finish .ok s

/-- `EVENT ch, oct, note, cmd, param, ins` (rule R125). A slide to a value that is no note is `E_NOTE` (rule R113). -/
def execEvent (ch : BitVec 4) (oct : BitVec 3) (note cmd : BitVec 4) (param : BitVec 8) (ins : BitVec 5) (s : State) :
    Host.Outcome State Fault Refusal :=
  withChannel ch s fun c =>
    if note ≠ 0 ∧ cmd = s.params.cmdToneSlide then
      match noteIndex note with
      | some n => finish .ok (slideToNote c oct n param s)
      | none => raise .note s
    else dispatchCommand c cmd param (if note ≠ 0 then triggerNote c oct note ins s else s)

end Sys2Proof.Machine
end

