-- ==== Sys2Proof/Machine/Dispatch.lean ====
section
/-! DEFINITION. One arm per command (30_encoding.md rule R63). -/

namespace Sys2Proof.Machine

def exec (i : Instr) (s : State) : Host.Outcome State Fault Refusal :=
  match i with
  | .setnote ch oct note => Sys2Proof.Machine.execSetnote ch oct note s
  | .setlin ch lin => Sys2Proof.Machine.execSetlin ch lin s
  | .getlin ch => Sys2Proof.Machine.execGetlin ch s
  | .setvol ch level => Sys2Proof.Machine.execSetvol ch level s
  | .getvol ch => Sys2Proof.Machine.execGetvol ch s
  | .ldins ins ch => Sys2Proof.Machine.execLdins ins ch s
  | .silence => Sys2Proof.Machine.execSilence s
  | .fxclr => Sys2Proof.Machine.execFxclr s
  | .event ch oct note cmd param ins => Sys2Proof.Machine.execEvent ch oct note cmd param ins s
  | .tick => Sys2Proof.Machine.execTick s

end Sys2Proof.Machine
end

