-- ==== Sys2Proof/Machine/Step.lean ====
section
/-! DEFINITION. One step of FMD: one turn at the ports, and the command it accepted, if any (00_scope.md rule R8, 10_state.md rule R29). -/

namespace Sys2Proof.Machine

/-- One step. A word that is no command raises its fault (30_encoding.md rule R72); every other accepted word is executed. -/
def step (s : State) : Host.Outcome State Fault Refusal :=
  match portTurn s with
  | (none, t) => .next t
  | (some w, t) =>
    match decode w with
    | .ok i => exec i t
    | .error e => raise (errOf e) t

/-- `s` with an opcode-table word presented on the command port as the next thing the host does, the block out of reset (log 4). -/
def State.withFetchWord (s : State) (nbits w : Nat) : State := (s.driveRst false).present (tableWord nbits w)

end Sys2Proof.Machine
end

