-- ==== Sys2Proof/Safety.lean ====
section
/-! DEFINITION. The terms in which claims about FMD are made: what a command put out and kept, the shadow invariant (10_state.md rule
R20), the legal register values (rules R11, R12, R15, R18), the canonical form of the memories, one channel's share of a TICK as a
function of its registers (42_effects.md rules R130 to R133), and repeated ticks. -/

namespace Sys2Proof.Machine

/-- What the chip image holds at an address: `CHIP[a]`, none if nothing was written there since reset (rules R20, R41). -/
def State.chipByte (s : State) (a : Byte) : Option Byte := Mem.read a.toNat s.chip

/-- The data of the last write to an address in a list of writes. -/
def lastWrite (ws : List (Byte × Byte)) (a : Byte) : Option Byte :=
  ws.foldl (fun found p => if p.1 = a then some p.2 else found) none

/-- From `s` to `t` the block put out exactly the writes `ws`, in order, and the response `r`; every chip address that `ws` does not
name reads as before, and the parameters, the bank, the reset input and the host's inputs are as they were. -/
def Ran (s t : State) (ws : List (Byte × Byte)) (r : Response) : Prop :=
  t.trace = s.trace ++ ws ∧ (∀ a, t.chipByte a = (lastWrite ws a).or (s.chipByte a)) ∧ t.responses = s.responses ++ [r] ∧
    t.params = s.params ∧ t.bank = s.bank ∧ t.rst = s.rst ∧ t.pending = s.pending

/-- No register of a channel other than `c` changed. -/
def OtherChannelsKept (c : Chan) (s t : State) : Prop := ∀ e, e ≠ c → t.chan e = s.chan e

/-- No register changed. -/
def AllChannelsKept (s t : State) : Prop := ∀ e, t.chan e = s.chan e

/-- The shadow invariant (rule R20): where the chip register of a shadow has been written since reset, chip and shadow agree. -/
def State.ShadowInv (s : State) : Prop :=
  ∀ c : Chan, (∀ b, s.chipByte (s.params.floAddr c) = some b → b = (s.chan c).flo) ∧
    (∀ b, s.chipByte (s.params.fhiAddr c) = some b → b = (s.chan c).fhi) ∧
    (∀ b, s.chipByte (s.params.volAddr c) = some b → b = (s.chan c).vol)

/-- The values the rules can store: `FHI` with bits 7:6 zero (R18), `PORTA` in -255..255 (R11), `TSTGT` inside the eight octaves
(R12), `VSL` in `-(VOLSLIDE_MID - 1) .. 255 - VOLSLIDE_MID` (R15). -/
def Channel.Legal (P : Params) (r : Channel) : Prop :=
  r.fhi.toNat < 64 ∧ (-255 ≤ r.porta.toInt ∧ r.porta.toInt ≤ 255) ∧
    (0 ≤ r.tstgt.toInt ∧ r.tstgt.toInt < 8 * P.octaveSpan) ∧
    (-((P.volSlideMid : Int) - 1) ≤ r.vsl.toInt ∧ r.vsl.toInt ≤ 255 - P.volSlideMid)

/-- Every channel's registers hold legal values. -/
def State.RegsLegal (s : State) : Prop := ∀ c : Chan, (s.chan c).Legal s.params

/-- Both memories are in canonical form: 256 chip addresses, 341 bank bytes (rule R40). -/
def State.MemInv (s : State) : Prop := Mem.wf 256 s.chip = true ∧ Mem.wf 341 s.bank = true

/-- The chip image is what the write trace makes of it (rule R41). -/
def State.ImageInv (s : State) : Prop := ∀ a, s.chipByte a = lastWrite s.trace a

/-- A channel's shadow set to a linear frequency, the key-on bit kept (40_driver.md rule R85). -/
def Channel.withLinear (P : Params) (lin : Int) (r : Channel) : Channel :=
  { r with
    flo := fnumLow (fromLinear P lin).2
    fhi := (r.fhi &&& 0x20) ||| pitchHigh (fromLinear P lin).1 (fromLinear P lin).2 }

/-- The two writes that follow a change of the frequency shadow (rule R85). -/
def freqWrites (P : Params) (c : Chan) (r : Channel) : List (Byte × Byte) := [(P.floAddr c, r.flo), (P.fhiAddr c, r.fhi)]

/-- Portamento on one channel's registers (rule R131). -/
def Channel.tickPorta (P : Params) (r : Channel) : Channel :=
  if r.porta ≠ 0 then r.withLinear P (r.linear P + r.porta.toInt) else r

/-- The linear frequency a tone slide moves to (rule R132): one step toward the target, never past it. -/
def slideTo (cur tgt step : Int) : Int := if cur < tgt then min (cur + step) tgt else max (cur - step) tgt

/-- Tone slide on one channel's registers (rule R132). -/
def Channel.tickTone (P : Params) (r : Channel) : Channel :=
  if r.tsact then
    if r.linear P = r.tstgt.toInt then { r with tsact := false }
    else
      let new := slideTo (r.linear P) r.tstgt.toInt r.tsstep.toNat
      { r.withLinear P new with tsact := decide (new ≠ r.tstgt.toInt) }
  else r

/-- Volume slide on one channel's registers (rule R133). -/
def Channel.tickVol (r : Channel) : Channel :=
  if r.vsl ≠ 0 then { r with vol := volWithLevel r.vol ((r.level : Int) + r.vsl.toInt).toNat } else r

/-- One channel's registers after a TICK, the three effects in the order of rule R130. -/
def Channel.tick (P : Params) (r : Channel) : Channel := ((r.tickPorta P).tickTone P).tickVol

/-- The writes of a TICK for one channel (rules R131 to R133). -/
def tickWrites (P : Params) (c : Chan) (r : Channel) : List (Byte × Byte) :=
  let r1 := r.tickPorta P
  let r2 := r1.tickTone P
  (if r.porta ≠ 0 then freqWrites P c r1 else []) ++
    (if r.tsact ∧ r1.linear P ≠ r.tstgt.toInt then freqWrites P c r2 else []) ++
    (if r.vsl ≠ 0 then [(P.volAddr c, r2.tickVol.vol)] else [])

/-- The operation code of a word (30_encoding.md rule R61). -/
def wordOp (w : Word) : Nat := w.toNat / 2 ^ 28

/-- The bits of a word that the format of its operation code reserves, as a number (rules R64 to R70, R62). -/
def reservedBits (w : Word) : Nat :=
  match wordOp w with
  | 1 => w.toNat / 2 ^ 7 % 2 ^ 17
  | 2 => w.toNat / 2 ^ 16 % 2 ^ 8
  | 3 => w.toNat % 2 ^ 24
  | 4 => w.toNat / 2 ^ 8 % 2 ^ 16
  | 5 => w.toNat % 2 ^ 24
  | 6 => w.toNat / 2 ^ 5 % 2 ^ 19
  | 7 => w.toNat % 2 ^ 28
  | 8 => w.toNat % 2 ^ 28
  | 10 => w.toNat % 2 ^ 28
  | _ => 0

/-- The classification of rule R72, its items in its order, read off the word's bits. -/
def classify (P : Params) (w : Word) : Err :=
  if wordOp w = 0 ∨ 11 ≤ wordOp w then .illegal
  else if reservedBits w ≠ 0 then .encoding
  else if wordOp w ∈ [1, 2, 3, 4, 5, 6, 9] ∧ 9 ≤ w.toNat / 2 ^ 24 % 16 then .channel
  else if (wordOp w = 1 ∧ w.toNat % 16 = 0) ∨ (wordOp w = 6 ∧ w.toNat % 32 = 31) then .operand
  else if wordOp w = 9 ∧ w.toNat / 2 ^ 8 % 16 = P.cmdToneSlide.toNat ∧ 13 ≤ w.toNat / 2 ^ 17 % 16 then .note
  else .none

/-- The channel field of a per-channel command (rule R22); none for SILENCE, FXCLR and TICK. -/
def channelField : Instr → Option (BitVec 4)
  | .setnote ch _ _ => some ch
  | .setlin ch _ => some ch
  | .getlin ch => some ch
  | .setvol ch _ => some ch
  | .getvol ch => some ch
  | .ldins _ ch => some ch
  | .silence => none
  | .fxclr => none
  | .event ch _ _ _ _ _ => some ch
  | .tick => none

/-- The most chip writes a command makes (00_scope.md rule R8 and the rules of the commands). -/
def maxWrites : Instr → Nat
  | .setnote _ _ _ => 2
  | .setlin _ _ => 2
  | .getlin _ => 0
  | .setvol _ _ => 1
  | .getvol _ => 0
  | .ldins _ _ => 11
  | .silence => 9
  | .fxclr => 0
  | .event _ _ _ _ _ _ => 15
  | .tick => 45

/-- The registers of one channel that the access table (10_state.md rule R22, an inference of the spec's own) says a command does not
write: its `W` columns, row by row. SETNOTE has a row for the notes 1..12 and one for 13..15; note 0 has none, since it faults (rule
R155) and so writes nothing. -/
def unwrittenKept : Instr → Channel → Channel → Prop
  | .setnote _ _ note, r, u =>
    if note = 0 then u = r
    else if note.toNat ≤ 12 then u = { r with flo := u.flo, fhi := u.fhi }
    else u = { r with fhi := u.fhi }
  | .setlin _ _, r, u => u = { r with flo := u.flo, fhi := u.fhi }
  | .getlin _, r, u => u = r
  | .setvol _ _, r, u => u = { r with vol := u.vol }
  | .getvol _, r, u => u = r
  | .ldins _ _, r, u => u = { r with vol := u.vol }
  | .silence, r, u => u = { r with fhi := u.fhi }
  | .fxclr, r, u => u = { r with porta := u.porta, tsact := u.tsact, vsl := u.vsl }
  | .event _ _ _ _ _ _, _, _ => True
  | .tick, r, u => u = { r with flo := u.flo, fhi := u.fhi, vol := u.vol, tsact := u.tsact }

/-- Nothing is armed on a channel (10_state.md rule R16). -/
def Channel.disarmed (r : Channel) : Prop := r.porta = 0 ∧ r.tsact = false ∧ r.vsl = 0

/-- The state with one more response and nothing else changed. -/
def answered (s : State) (r : Response) : State := { s with responses := s.responses ++ [r] }

/-- The state `n` TICK commands lead to, one after the other. -/
def runTicks : Nat → State → Host.Outcome State Fault Refusal
  | 0, s => .next s
  | n + 1, s =>
    match runTicks n s with
    | .next t => exec .tick t
    | .fault r => .fault r
    | .refused r => .refused r

end Sys2Proof.Machine
end

