-- ==== Sys2Proof/Certificates/Slice0/Obligations.lean ====
section
/-! DEFINITION. The statements for the provers. Where a statement speaks of channel `c`, the command's 4-bit field is `ch` with
`ch.toNat = c`; where it needs the spec's constraints on the parameter record (00_scope.md rule R6) it assumes `admissible`. The
list `pending` of what the host does next, and a step's taking one of its entries, are the model's form of the ports and no rule of
the spec (log 4). -/

open Sys2Proof Sys2Proof.Machine

/-- No bit of an encoding is dropped: every command, with every operand at every value its field holds, decodes from its own word
(30_encoding.md rules R61 to R71). -/
def Obligations.DecodeReturnsWhatWasEncoded : Prop := ∀ i : Instr, decode (encode i) = .ok i

/-- Each word has one meaning: a word that decodes is the encoding of what it decodes to. -/
def Obligations.EncodeReturnsTheDecodedWord : Prop := ∀ (w : Word) (i : Instr), decode w = .ok i → encode i = w

/-- The words of 95_test_vectors.md section 2.2, one or two a command, decode to the commands named there. -/
def Obligations.SpecWordsDecode : Prop :=
  decode 0x1000004C = .ok (.setnote 0 4 12) ∧ decode 0x250003E8 = .ok (.setlin 5 1000) ∧
    decode 0x2500FFFF = .ok (.setlin 5 (-1)) ∧ decode 0x30000000 = .ok (.getlin 0) ∧
    decode 0x40000028 = .ok (.setvol 0 40) ∧ decode 0x58000000 = .ok (.getvol 8) ∧
    decode 0x6800001E = .ok (.ldins 30 8) ∧ decode 0x70000000 = .ok .silence ∧
    decode 0x80000000 = .ok .fxclr ∧ decode 0x9156211E = .ok (.event 1 2 11 1 30 2) ∧
    decode 0x98FFFFFF = .ok (.event 8 7 15 15 255 31) ∧ decode 0xA0000000 = .ok .tick

/-- Rule R152 (the word presented as in log 4): a word with one of the six unassigned operation codes is no command and no no-op:
`rsp.err` is `E_ILLEGAL` and nothing else happens. -/
def Obligations.UnassignedOpcodesRaiseIllegal : Prop :=
  ∀ (s : State) (w : Word) (rest : List HostInput), s.rst = false → s.pending = .command w :: rest →
    (wordOp w = 0 ∨ 11 ≤ wordOp w) →
    step s = .next { s with
      pending := rest
      responses := s.responses ++ [{ err := .illegal, data := 0, jump := 0, speedValid := false, speed := 0 }] }

/-- Rule R62 (the word presented as in log 4): a word with an assigned operation code and a reserved bit set is not executed; it
faults with `E_ENCODING`. EVENT's `param` with `cmd = 0` is no reserved bit: any value of it is accepted and makes no difference.
-/
def Obligations.ReservedBitsRaiseEncoding : Prop :=
  (∀ (s : State) (w : Word) (rest : List HostInput), s.rst = false → s.pending = .command w :: rest →
    1 ≤ wordOp w → wordOp w ≤ 10 → reservedBits w ≠ 0 →
    step s = .next { s with
      pending := rest
      responses := s.responses ++ [{ err := .encoding, data := 0, jump := 0, speedValid := false, speed := 0 }] }) ∧
  ∀ (s : State) (ch : BitVec 4) (oct : BitVec 3) (note : BitVec 4) (param : BitVec 8) (ins : BitVec 5),
    s.params.admissible = true →
    decode (encode (.event ch oct note 0 param ins)) = .ok (.event ch oct note 0 param ins) ∧
      exec (.event ch oct note 0 param ins) s = exec (.event ch oct note 0 0 ins) s

/-- Rules R72 and R157 (the word presented as in log 4): every one of the 2^32 words gets the first cause of the list that it
meets, or executes; a faulting word changes no state and makes no chip write. -/
def Obligations.EveryWordIsClassified : Prop :=
  ∀ (s : State) (w : Word) (rest : List HostInput), s.rst = false → s.pending = .command w :: rest →
    ∃ t r, step s = .next t ∧ t.responses = s.responses ++ [r] ∧ r.err = classify s.params w ∧
      (classify s.params w ≠ .none → t = { s with pending := rest, responses := s.responses ++ [r] })

/-- Rule R151 (the word presented as in log 4): a faulting command changes no register, writes nothing and answers its code with
every other response field 0; like any other command it leaves the block ready for the next one. -/
def Obligations.FaultsLeaveNoTrace : Prop :=
  ∀ (s : State) (w : Word) (rest : List HostInput), s.rst = false → s.pending = .command w :: rest →
    ∃ t r, step s = .next t ∧ t.responses = s.responses ++ [r] ∧ t.cmdReady = true ∧ t.pending = rest ∧
      (r.err ≠ .none →
        r = { err := r.err, data := 0, jump := 0, speedValid := false, speed := 0 } ∧
        t = { s with pending := rest, responses := s.responses ++ [r] })

/-- The codes of rule R150 as numbers; none of 6..15 is ever produced. -/
def Obligations.FaultCodesAreNumbered : Prop :=
  Err.none.code = 0 ∧ Err.illegal.code = 1 ∧ Err.encoding.code = 2 ∧ Err.channel.code = 3 ∧ Err.operand.code = 4 ∧
    Err.note.code = 5 ∧ ∀ e : Err, e.code.toNat ≤ 5

/-- Rule R153: a channel field 9..15 names no channel, and each of the seven per-channel commands refuses it, whatever its other
operands. -/
def Obligations.AbsentChannelsRaiseChannel : Prop :=
  ∀ (s : State) (i : Instr) (ch : BitVec 4), channelField i = some ch → 9 ≤ ch.toNat →
    exec i s = .next (answered s { err := .channel, data := 0, jump := 0, speedValid := false, speed := 0 })

/-- Rule R155: SETNOTE with note 0 and LDINS with slot 31 are refused with `E_OPERAND`. -/
def Obligations.EmptyOperandsRaiseOperand : Prop :=
  ∀ (s : State) (ch : BitVec 4), ch.toNat ≤ 8 →
    (∀ oct : BitVec 3, exec (.setnote ch oct 0) s =
      .next (answered s { err := .operand, data := 0, jump := 0, speedValid := false, speed := 0 })) ∧
    exec (.ldins 31 ch) s = .next (answered s { err := .operand, data := 0, jump := 0, speedValid := false, speed := 0 })

/-- Rule R113: EVENT's two checks, made before anything else: the channel first, then a slide toward a key-off value. -/
def Obligations.EventChecksComeFirst : Prop :=
  ∀ (s : State) (ch : BitVec 4) (oct : BitVec 3) (note : BitVec 4) (param : BitVec 8) (ins : BitVec 5),
    (9 ≤ ch.toNat → ∀ cmd, exec (.event ch oct note cmd param ins) s =
      .next (answered s { err := .channel, data := 0, jump := 0, speedValid := false, speed := 0 })) ∧
    (ch.toNat ≤ 8 → 13 ≤ note.toNat → exec (.event ch oct note s.params.cmdToneSlide param ins) s =
      .next (answered s { err := .note, data := 0, jump := 0, speedValid := false, speed := 0 })) ∧
    (ch.toNat ≤ 8 → ∀ cmd, (note.toNat < 13 ∨ cmd ≠ s.params.cmdToneSlide) →
      ∃ t r, exec (.event ch oct note cmd param ins) s = .next t ∧ t.responses = s.responses ++ [r] ∧ r.err = .none)

/-- A step runs the decoded command: the word is taken from the host's inputs and nothing else happens around `exec`. -/
def Obligations.StepRunsTheDecodedCommand : Prop :=
  ∀ (s : State) (w : Word) (rest : List HostInput) (i : Instr), s.rst = false → s.pending = .command w :: rest →
    decode w = .ok i → step s = exec i { s with pending := rest }

/-- With no input the block idles: it is ready and keeps all state (60_exceptions.md rule R163). -/
def Obligations.IdleKeepsAllState : Prop :=
  ∀ s : State, s.rst = false → s.pending = [] → step s = .next s ∧ s.cmdReady = true

/-- Rule R55 (the host's input as in log 4): a bank byte that the host changes between commands is what later reads return, and no
other state is affected. -/
def Obligations.HostLoadsBankByte : Prop :=
  ∀ (s : State) (k : Slot) (i : Offset) (b : Byte) (rest : List HostInput), s.rst = false →
    s.pending = .bankByte k i b :: rest →
    ∃ t, step s = .next t ∧ t.insRead k i = b ∧ (∀ l j, (l, j) ≠ (k, i) → t.insRead l j = s.insRead l j) ∧
      t = { s with bank := t.bank, pending := rest }

/-- Rule R171: the reset values of every register, while `rst` is 1 and on the step that raises it (the step: log 4, log 8). The
parameters and the bank are not reset. -/
def Obligations.ResetValuesAreHeld : Prop :=
  ∀ s : State, ((∃ rest, s.pending = .rst true :: rest) ∨ s.rst = true) →
    ∃ t, step s = .next t ∧ t.params = s.params ∧ ((∀ k i b rest, s.pending ≠ .bankByte k i b :: rest) → t.bank = s.bank) ∧
      ∀ c : Chan, (t.chan c).flo = 0x00 ∧ (t.chan c).fhi = 0x00 ∧ (t.chan c).vol = 0x00 ∧ (t.chan c).porta = 0 ∧
        (t.chan c).tstgt = 0 ∧ (t.chan c).tsstep = 0 ∧ (t.chan c).tsact = false ∧ (t.chan c).vsl = 0

/-- Rule R170 at the ports: raising `rst` leaves the block not ready, and letting it fall leaves it ready with `W` empty. That `W` is
empty from the raise on is the model's choice (log 8: the rule empties it when `rst` falls), that the chip image is emptied is its
deduction (log 3), and one input a step is its form of the ports (log 4). -/
def Obligations.ResetEmptiesTheTrace : Prop :=
  (∀ (s : State) (rest : List HostInput), s.pending = .rst true :: rest →
    ∃ t, step s = .next t ∧ t.rst = true ∧ t.cmdReady = false ∧ t.trace = [] ∧ (∀ a, t.chipByte a = none) ∧ t.pending = rest) ∧
  ∀ (s : State) (rest : List HostInput), s.rst = true → s.pending = .rst false :: rest →
    ∃ t, step s = .next t ∧ t.rst = false ∧ t.cmdReady = true ∧ t.trace = [] ∧ t.pending = rest

/-- While `rst` is 1 no command is accepted (rule R170). The rest is the model's choice: the presented word stays presented (log 4), the
earlier responses stay (log 6), and `W` is empty while `rst` is 1 (log 8: the rule empties it when `rst` falls). -/
def Obligations.CommandWaitsWhileInReset : Prop :=
  ∀ (s : State) (w : Word) (rest : List HostInput), s.rst = true → s.pending = .command w :: rest →
    ∃ t, step s = .next t ∧ t.pending = s.pending ∧ t.responses = s.responses ∧ t.rst = true ∧ t.trace = []

/-- Right after reset, for every admissible parameter record and every bank in canonical form, every invariant of the model holds.
-/
def Obligations.ResetStateMeetsTheInvariants : Prop :=
  ∀ (P : Params) (bank : Mem), P.admissible = true → Mem.wf 341 bank = true →
    (State.resetWith P bank).ShadowInv ∧ (State.resetWith P bank).RegsLegal ∧ (State.resetWith P bank).MemInv ∧
      (State.resetWith P bank).ImageInv

/-- The reference record REF is admissible (00_scope.md rule R6), so no statement that assumes `admissible` is empty. -/
def Obligations.ReferenceRecordIsAdmissible : Prop := Config.refParams.admissible = true

/-- The first commands after reset (rule R173, an inference of the spec's own): what GETLIN and GETVOL answer, that TICK and FXCLR
change nothing but the response list, and SILENCE's nine writes of 0x00. -/
def Obligations.FirstCommandsAfterReset : Prop :=
  ∀ (P : Params) (bank : Mem) (ch : BitVec 4), P.admissible = true → ch.toNat ≤ 8 →
    (∃ x : I16, x.toInt = -(P.baseFnum : Int) ∧ exec (.getlin ch) (State.resetWith P bank) =
      .next (answered (State.resetWith P bank) { err := .none, data := x, jump := 0, speedValid := false, speed := 0 })) ∧
    exec (.getvol ch) (State.resetWith P bank) =
      .next (answered (State.resetWith P bank) { err := .none, data := 63, jump := 0, speedValid := false, speed := 0 }) ∧
    exec .tick (State.resetWith P bank) = .next (answered (State.resetWith P bank) .ok) ∧
    exec .fxclr (State.resetWith P bank) = .next (answered (State.resetWith P bank) .ok) ∧
    ∃ t, exec .silence (State.resetWith P bank) = .next t ∧ AllChannelsKept (State.resetWith P bank) t ∧
      t.trace = allChannels.map fun c => (P.fhiAddr c, 0x00)

/-- Rule R83, by SETNOTE with a note 1..12: the frequency number of the note split over the two shadows, key-on 1, two writes, low
register first; nothing else changes. -/
def Obligations.SetnoteTriggersTheNote : Prop :=
  ∀ (s : State) (ch : BitVec 4) (c : Chan) (oct : BitVec 3) (note : BitVec 4) (n : Fin 12),
    ch.toNat = c.val → note.toNat = n.val + 1 →
    ∃ (t : State) (lo hi : Byte), exec (.setnote ch oct note) s = .next t ∧
      lo.toNat = (s.params.noteFnum n).toNat % 256 ∧ hi.toNat = 32 + 4 * oct.toNat + (s.params.noteFnum n).toNat / 256 ∧
      t.chan c = { s.chan c with flo := lo, fhi := hi } ∧ OtherChannelsKept c s t ∧
      Ran s t [(s.params.floAddr c, lo), (s.params.fhiAddr c, hi)] .ok

/-- Rule R84, by SETNOTE with a note 13..15: the key-on bit cleared, the pitch bits and so the linear frequency kept, one write,
also when the bit was 0 already; no effect register is touched. -/
def Obligations.SetnoteKeysOff : Prop :=
  ∀ (s : State) (ch : BitVec 4) (c : Chan) (oct : BitVec 3) (note : BitVec 4), ch.toNat = c.val → 13 ≤ note.toNat →
    ∃ (t : State) (hi : Byte), exec (.setnote ch oct note) s = .next t ∧ hi.toNat = (s.chan c).fhi.toNat % 32 ∧
      t.chan c = { s.chan c with fhi := hi } ∧ OtherChannelsKept c s t ∧
      Ran s t [(s.params.fhiAddr c, hi)] .ok ∧ getLin c t = getLin c s

/-- Rule R93: SETLIN refuses an absent channel; otherwise it stores the pair that its operand unrolls to, octave modulo 8, keeps the
key-on bit, and always makes two writes, low register first; no effect register is touched. `q` and `r` are the floor quotient and
remainder of rule R81. -/
def Obligations.SetlinStoresTheFrequency : Prop :=
  ∀ (s : State) (ch : BitVec 4) (lin : BitVec 16), s.params.admissible = true →
    (9 ≤ ch.toNat → exec (.setlin ch lin) s =
      .next (answered s { err := .channel, data := 0, jump := 0, speedValid := false, speed := 0 })) ∧
    ∀ (c : Chan) (q r : Int), ch.toNat = c.val →
      lin.toInt = q * s.params.octaveSpan + r → 0 ≤ r → r < s.params.octaveSpan →
      ∃ (t : State) (lo hi : Byte), exec (.setlin ch lin) s = .next t ∧
        (lo.toNat : Int) = (s.params.baseFnum + r) % 256 ∧
        (hi.toNat : Int) = ((s.chan c).fhi.toNat / 32 % 2 * 32 : Nat) + 4 * (q % 8) + (s.params.baseFnum + r) / 256 ∧
        t.chan c = { s.chan c with flo := lo, fhi := hi } ∧ OtherChannelsKept c s t ∧
        Ran s t [(s.params.floAddr c, lo), (s.params.fhiAddr c, hi)] .ok

/-- Rule R86, by GETLIN: the linear frequency of the shadow, the key-on bit not entering; no write, no state change; and what it is
after SETLIN and after a note. -/
def Obligations.GetlinReadsTheShadow : Prop :=
  ∀ (s : State) (ch : BitVec 4) (c : Chan), s.params.admissible = true → ch.toNat = c.val →
    (∃ x : I16, x.toInt = ((s.chan c).fhi.toNat / 4 % 8 : Nat) * (s.params.octaveSpan : Int)
        + ((s.chan c).fhi.toNat % 4 * 256 + (s.chan c).flo.toNat : Nat) - s.params.baseFnum ∧
      exec (.getlin ch) s =
        .next (answered s { err := .none, data := x, jump := 0, speedValid := false, speed := 0 })) ∧
    (∀ lin : BitVec 16, 0 ≤ lin.toInt → lin.toInt < 8 * s.params.octaveSpan →
      ∃ t, exec (.setlin ch lin) s = .next t ∧ getLin c t = lin.toInt) ∧
    ∀ (oct : BitVec 3) (note : BitVec 4) (n : Fin 12), note.toNat = n.val + 1 →
      ∃ t, exec (.setnote ch oct note) s = .next t ∧ getLin c t = toLinear s.params oct (s.params.noteFnum n)

/-- Rule R95 with rule R88: SETVOL refuses an absent channel; otherwise the level is clamped to 63 and inverted into bits 5:0, bits
7:6 are kept, and one write is made, always. -/
def Obligations.SetvolStoresTheLevel : Prop :=
  ∀ (s : State) (ch : BitVec 4) (level : BitVec 8),
    (9 ≤ ch.toNat → exec (.setvol ch level) s =
      .next (answered s { err := .channel, data := 0, jump := 0, speedValid := false, speed := 0 })) ∧
    ∀ c : Chan, ch.toNat = c.val →
      ∃ (t : State) (v : Byte), exec (.setvol ch level) s = .next t ∧
        v.toNat = (s.chan c).vol.toNat / 64 * 64 + (63 - min level.toNat 63) ∧
        t.chan c = { s.chan c with vol := v } ∧ OtherChannelsKept c s t ∧ Ran s t [(s.params.volAddr c, v)] .ok

/-- Rule R87, by GETVOL: 63 minus the attenuation bits; no write, no state change. -/
def Obligations.GetvolReadsTheLevel : Prop :=
  ∀ (s : State) (ch : BitVec 4) (c : Chan), ch.toNat = c.val →
    ∃ x : I16, x.toInt = 63 - ((s.chan c).vol.toNat % 64 : Nat) ∧
      exec (.getvol ch) s = .next (answered s { err := .none, data := x, jump := 0, speedValid := false, speed := 0 })

/-- Rules R90 and R91, by LDINS: eleven writes in ascending byte index, the whole carrier level byte into the shadow volume; no
other register is touched. -/
def Obligations.LdinsLoadsTheInstrument : Prop :=
  ∀ (s : State) (ch : BitVec 4) (c : Chan) (ins : BitVec 5) (k : Slot), ch.toNat = c.val → ins.toNat = k.val →
    ∃ t, exec (.ldins ins ch) s = .next t ∧ t.chan c = { s.chan c with vol := s.insRead k s.params.carrierIdx } ∧
      OtherChannelsKept c s t ∧
      Ran s t [(s.params.insAddr 0 c, s.insRead k 0), (s.params.insAddr 1 c, s.insRead k 1), (s.params.insAddr 2 c, s.insRead k 2),
        (s.params.insAddr 3 c, s.insRead k 3), (s.params.insAddr 4 c, s.insRead k 4), (s.params.insAddr 5 c, s.insRead k 5),
        (s.params.insAddr 6 c, s.insRead k 6), (s.params.insAddr 7 c, s.insRead k 7), (s.params.insAddr 8 c, s.insRead k 8),
        (s.params.insAddr 9 c, s.insRead k 9), (s.params.insAddr 10 c, s.insRead k 10)] .ok

/-- What an instrument byte is (20_memory.md rules R48, R49): the byte the bank lists at `idx * 11 + i`, and the free value where it
lists none. -/
def Obligations.InsReadReadsTheBank : Prop :=
  ∀ (s : State) (k : Slot) (i : Offset),
    (∀ b, Mem.read (k.val * 11 + i.val) s.bank = some b → s.insRead k i = b) ∧
    (Mem.read (k.val * 11 + i.val) s.bank = none → s.insRead k i = Config.undefinedBankByte (k.val * 11 + i.val))

/-- Rule R98: SILENCE is nine key-offs, channels ascending, and nothing else. -/
def Obligations.SilenceKeysOffEveryChannel : Prop :=
  ∀ s : State, ∃ (t : State) (hi : Chan → Byte), exec .silence s = .next t ∧
    (∀ c, (hi c).toNat = (s.chan c).fhi.toNat % 32) ∧ (∀ c, t.chan c = { s.chan c with fhi := hi c }) ∧
    Ran s t [(s.params.fhiAddr 0, hi 0), (s.params.fhiAddr 1, hi 1), (s.params.fhiAddr 2, hi 2), (s.params.fhiAddr 3, hi 3),
      (s.params.fhiAddr 4, hi 4), (s.params.fhiAddr 5, hi 5), (s.params.fhiAddr 6, hi 6), (s.params.fhiAddr 7, hi 7),
      (s.params.fhiAddr 8, hi 8)] .ok

/-- Rule R110: FXCLR clears the two deltas and the tone-slide flag of every channel, keeps target, step and shadows, writes
nothing. -/
def Obligations.FxclrDisarmsEveryChannel : Prop :=
  ∀ s : State, ∃ t, exec .fxclr s = .next t ∧ (∀ c, t.chan c = { s.chan c with porta := 0, tsact := false, vsl := 0 }) ∧
    Ran s t [] .ok

/-- Rule R114: the slide-to-note branch sets target and flag, sets the step unless `param` is 0, makes no write, triggers nothing
and ignores `ins`. -/
def Obligations.EventArmsTheToneSlide : Prop :=
  ∀ (s : State) (ch : BitVec 4) (c : Chan) (oct : BitVec 3) (note : BitVec 4) (n : Fin 12) (param : BitVec 8) (ins : BitVec 5),
    s.params.admissible = true → ch.toNat = c.val → note.toNat = n.val + 1 →
    ∃ (t : State) (x : I16), exec (.event ch oct note s.params.cmdToneSlide param ins) s = .next t ∧
      x.toInt = (oct.toNat : Int) * s.params.octaveSpan + (s.params.noteFnum n).toNat - s.params.baseFnum ∧
      t.chan c = { s.chan c with tstgt := x, tsact := true, tsstep := if param = 0 then (s.chan c).tsstep else param } ∧
      OtherChannelsKept c s t ∧ Ran s t [] .ok

/-- Rule R115 with rule R123: the note-trigger branch on an event whose command id is 0 or none of the eight: key-off, then the
instrument if `ins` is not 0, then the note or a second key-off; the command adds nothing. -/
def Obligations.EventTriggersTheNote : Prop :=
  ∀ (s : State) (ch : BitVec 4) (c : Chan) (oct : BitVec 3) (note cmd : BitVec 4) (param : BitVec 8) (ins : BitVec 5),
    s.params.admissible = true → ch.toNat = c.val → 1 ≤ note.toNat → cmd ∉ s.params.cmdIds →
    ∃ (t : State) (off vol : Byte) (load : List (Byte × Byte)), exec (.event ch oct note cmd param ins) s = .next t ∧
      off.toNat = (s.chan c).fhi.toNat % 32 ∧
      (ins = 0 → load = [] ∧ vol = (s.chan c).vol) ∧
      (∀ k : Slot, ins.toNat = k.val + 1 → vol = s.insRead k s.params.carrierIdx ∧
        load = allOffsets.map fun i => (s.params.insAddr i c, s.insRead k i)) ∧
      OtherChannelsKept c s t ∧
      (∀ n : Fin 12, note.toNat = n.val + 1 → ∃ lo hi : Byte, lo.toNat = (s.params.noteFnum n).toNat % 256 ∧
        hi.toNat = 32 + 4 * oct.toNat + (s.params.noteFnum n).toNat / 256 ∧
        t.chan c = { s.chan c with flo := lo, fhi := hi, vol := vol } ∧
        Ran s t ((s.params.fhiAddr c, off) :: load ++ [(s.params.floAddr c, lo), (s.params.fhiAddr c, hi)]) .ok) ∧
      (13 ≤ note.toNat → t.chan c = { s.chan c with fhi := off, vol := vol } ∧
        Ran s t ((s.params.fhiAddr c, off) :: load ++ [(s.params.fhiAddr c, off)]) .ok)

/-- Rule R124, and rule R123 on an event with no note: the block does nothing at all, whatever `oct`, `param` and `ins` are. -/
def Obligations.EventWithoutNoteOrEffectDoesNothing : Prop :=
  ∀ (s : State) (ch : BitVec 4) (oct : BitVec 3) (cmd : BitVec 4) (param : BitVec 8) (ins : BitVec 5),
    s.params.admissible = true → ch.toNat ≤ 8 → (cmd = s.params.cmdToneSlide ∨ cmd ∉ s.params.cmdIds) →
    exec (.event ch oct 0 cmd param ins) s = .next (answered s .ok)

/-- Rule R117: the two portamento commands store the parameter, unscaled, as it is or negated. `u` is what the same event does with
no command (rule R116: the dispatch follows the note handling). -/
def Obligations.EventArmsPortamento : Prop :=
  ∀ (s : State) (ch : BitVec 4) (c : Chan) (oct : BitVec 3) (note : BitVec 4) (param : BitVec 8) (ins : BitVec 5),
    s.params.admissible = true → ch.toNat = c.val →
    ∃ (u : State) (x y : I16), exec (.event ch oct note 0 0 ins) s = .next u ∧
      x.toInt = (param.toNat : Int) ∧
      exec (.event ch oct note s.params.cmdPortaUp param ins) s = .next (u.setChan c { u.chan c with porta := x }) ∧
      y.toInt = -(param.toNat : Int) ∧
      exec (.event ch oct note s.params.cmdPortaDn param ins) s = .next (u.setChan c { u.chan c with porta := y })

/-- Rule R118 with rule R112: the volume-and-tone-slide command sets the flag and the volume delta, and uses target and step as they
stand. -/
def Obligations.EventContinuesToneSlide : Prop :=
  ∀ (s : State) (ch : BitVec 4) (c : Chan) (oct : BitVec 3) (note : BitVec 4) (param : BitVec 8) (ins : BitVec 5),
    s.params.admissible = true → ch.toNat = c.val →
    ∃ (u : State) (x : I16), exec (.event ch oct note 0 0 ins) s = .next u ∧
      (param.toNat < s.params.volSlideMid → x.toInt = -(param.toNat : Int)) ∧
      (s.params.volSlideMid ≤ param.toNat → x.toInt = (param.toNat : Int) - s.params.volSlideMid) ∧
      exec (.event ch oct note s.params.cmdToneVol param ins) s =
        .next (u.setChan c { u.chan c with tsact := true, vsl := x })

/-- Rule R119 with rule R112: the plain volume-slide command stores the decoded delta; no write. -/
def Obligations.EventArmsVolumeSlide : Prop :=
  ∀ (s : State) (ch : BitVec 4) (c : Chan) (oct : BitVec 3) (note : BitVec 4) (param : BitVec 8) (ins : BitVec 5),
    s.params.admissible = true → ch.toNat = c.val →
    ∃ (u : State) (x : I16), exec (.event ch oct note 0 0 ins) s = .next u ∧
      (param.toNat < s.params.volSlideMid → x.toInt = -(param.toNat : Int)) ∧
      (s.params.volSlideMid ≤ param.toNat → x.toInt = (param.toNat : Int) - s.params.volSlideMid) ∧
      exec (.event ch oct note s.params.cmdVolSlide param ins) s = .next (u.setChan c { u.chan c with vsl := x })

/-- The set-volume command (rule R120, an inference of the spec's own): one write after the note branch's, the level clamped, the
scaling bits those the note branch left. -/
def Obligations.EventSetsTheVolume : Prop :=
  ∀ (s : State) (ch : BitVec 4) (c : Chan) (oct : BitVec 3) (note : BitVec 4) (param : BitVec 8) (ins : BitVec 5),
    s.params.admissible = true → ch.toNat = c.val →
    ∃ (u t : State) (v : Byte), exec (.event ch oct note 0 0 ins) s = .next u ∧
      exec (.event ch oct note s.params.cmdSetVol param ins) s = .next t ∧
      v.toNat = (u.chan c).vol.toNat / 64 * 64 + (63 - min param.toNat 63) ∧
      t.chan c = { u.chan c with vol := v } ∧ OtherChannelsKept c u t ∧ t.trace = u.trace ++ [(s.params.volAddr c, v)] ∧
      (∀ a, t.chipByte a = if a = s.params.volAddr c then some v else u.chipByte a) ∧
      t = { u with chans := t.chans, trace := t.trace, chip := t.chip }

/-- Rule R121: the jump-to-line command reports `1 + param`, 1..256, and changes no state for it. -/
def Obligations.EventReportsTheJump : Prop :=
  ∀ (s : State) (ch : BitVec 4) (oct : BitVec 3) (note : BitVec 4) (param : BitVec 8) (ins : BitVec 5),
    s.params.admissible = true → ch.toNat ≤ 8 →
    ∃ (u : State) (j : BitVec 9), exec (.event ch oct note 0 0 ins) s = .next u ∧ j.toNat = 1 + param.toNat ∧
      exec (.event ch oct note s.params.cmdJumpLine param ins) s = .next { u with
        responses := s.responses ++ [{ err := .none, data := 0, jump := j, speedValid := false, speed := 0 }] }

/-- Rule R122: the set-speed command reports the new speed and keeps nothing. -/
def Obligations.EventReportsTheSpeed : Prop :=
  ∀ (s : State) (ch : BitVec 4) (oct : BitVec 3) (note : BitVec 4) (param : BitVec 8) (ins : BitVec 5),
    s.params.admissible = true → ch.toNat ≤ 8 →
    ∃ u : State, exec (.event ch oct note 0 0 ins) s = .next u ∧
      exec (.event ch oct note s.params.cmdSetSpeed param ins) s = .next { u with
        responses := s.responses ++ [{ err := .none, data := 0, jump := 0, speedValid := true, speed := param }] }

/-- Rules R130 and R134: TICK acts on every channel alone, by the three effects in their order, and its writes stand in channel
order 0..8. -/
def Obligations.TickActsChannelByChannel : Prop :=
  ∀ s : State, ∃ t, exec .tick s = .next t ∧ (∀ c, t.chan c = (s.chan c).tick s.params) ∧
    Ran s t (allChannels.flatMap fun c => tickWrites s.params c (s.chan c)) .ok

/-- Rule R131, where portamento alone is armed and on one channel: the delta is added to the linear frequency, the sum stored with
the octave modulo 8, key-on kept, two writes; where nothing is armed, no write and no change. -/
def Obligations.TickAppliesPortamento : Prop :=
  ∀ (s : State) (c : Chan), s.params.admissible = true → (∀ e, e ≠ c → (s.chan e).disarmed) →
    (s.chan c).tsact = false → (s.chan c).vsl = 0 →
    ((s.chan c).porta = 0 → exec .tick s = .next (answered s .ok)) ∧
    ∀ q r : Int, (s.chan c).porta ≠ 0 → getLin c s + (s.chan c).porta.toInt = q * s.params.octaveSpan + r →
      0 ≤ r → r < s.params.octaveSpan →
      ∃ (t : State) (lo hi : Byte), exec .tick s = .next t ∧
        (lo.toNat : Int) = (s.params.baseFnum + r) % 256 ∧
        (hi.toNat : Int) = ((s.chan c).fhi.toNat / 32 % 2 * 32 : Nat) + 4 * (q % 8) + (s.params.baseFnum + r) / 256 ∧
        t.chan c = { s.chan c with flo := lo, fhi := hi } ∧ OtherChannelsKept c s t ∧
        Ran s t [(s.params.floAddr c, lo), (s.params.fhiAddr c, hi)] .ok

/-- Rule R132, where the tone slide alone is armed and on one channel: already at the target, disarmed without a write; else one
step toward it, clamped to it, disarmed exactly on arrival, two writes. -/
def Obligations.TickAppliesToneSlide : Prop :=
  ∀ (s : State) (c : Chan), s.params.admissible = true → (∀ e, e ≠ c → (s.chan e).disarmed) →
    (s.chan c).tsact = true → (s.chan c).porta = 0 → (s.chan c).vsl = 0 →
    (getLin c s = (s.chan c).tstgt.toInt →
      ∃ t, exec .tick s = .next t ∧ t.chan c = { s.chan c with tsact := false } ∧ OtherChannelsKept c s t ∧ Ran s t [] .ok) ∧
    ∀ new q r : Int, getLin c s ≠ (s.chan c).tstgt.toInt →
      (getLin c s < (s.chan c).tstgt.toInt → new = min (getLin c s + (s.chan c).tsstep.toNat) (s.chan c).tstgt.toInt) →
      ((s.chan c).tstgt.toInt < getLin c s → new = max (getLin c s - (s.chan c).tsstep.toNat) (s.chan c).tstgt.toInt) →
      new = q * s.params.octaveSpan + r → 0 ≤ r → r < s.params.octaveSpan →
      ∃ (t : State) (lo hi : Byte), exec .tick s = .next t ∧
        (lo.toNat : Int) = (s.params.baseFnum + r) % 256 ∧
        (hi.toNat : Int) = ((s.chan c).fhi.toNat / 32 % 2 * 32 : Nat) + 4 * (q % 8) + (s.params.baseFnum + r) / 256 ∧
        t.chan c = { s.chan c with flo := lo, fhi := hi, tsact := decide (new ≠ (s.chan c).tstgt.toInt) } ∧
        OtherChannelsKept c s t ∧ Ran s t [(s.params.floAddr c, lo), (s.params.fhiAddr c, hi)] .ok

/-- Rule R133, where the volume slide alone is armed and on one channel: the delta is added to the level, clamped to 0..63, scaling
bits kept, one write, also at the clamps; the delta stays. -/
def Obligations.TickAppliesVolumeSlide : Prop :=
  ∀ (s : State) (c : Chan), (∀ e, e ≠ c → (s.chan e).disarmed) →
    (s.chan c).porta = 0 → (s.chan c).tsact = false → (s.chan c).vsl ≠ 0 →
    ∃ (t : State) (v : Byte), exec .tick s = .next t ∧
      (v.toNat : Int) = ((s.chan c).vol.toNat / 64 * 64 : Nat) +
        (63 - max 0 (min 63 (63 - ((s.chan c).vol.toNat % 64 : Nat) + (s.chan c).vsl.toInt))) ∧
      t.chan c = { s.chan c with vol := v } ∧ OtherChannelsKept c s t ∧ Ran s t [(s.params.volAddr c, v)] .ok

/-- TICK never changes the effect registers but `TSACT`, which it only clears, nor the key-on bit, and reports nothing (rule R140, an
inference of the spec's own, and the flags of rule R134). -/
def Obligations.TickKeepsEffectRegistersAndKeyOn : Prop :=
  ∀ s : State, ∃ t, exec .tick s = .next t ∧ t.responses = s.responses ++ [.ok] ∧ t.params = s.params ∧ t.bank = s.bank ∧
    ∀ c : Chan, (t.chan c).porta = (s.chan c).porta ∧ (t.chan c).tstgt = (s.chan c).tstgt ∧
      (t.chan c).tsstep = (s.chan c).tsstep ∧ (t.chan c).vsl = (s.chan c).vsl ∧
      ((t.chan c).tsact = true → (s.chan c).tsact = true) ∧ (t.chan c).keyOn = (s.chan c).keyOn

/-- The tone-slide convergence law (rule R135, an inference of the spec's own): with steps of `d`, after `k` ticks the frequency has
moved `k * d` toward the target while that does not reach it, and is at the target, with the slide disarmed, from then on. -/
def Obligations.ToneSlideConverges : Prop :=
  ∀ (s : State) (c : Chan) (k : Nat), s.params.admissible = true → (s.chan c).porta = 0 → (s.chan c).tsact = true →
    0 < (s.chan c).tsstep.toNat →
    0 ≤ getLin c s → getLin c s < 8 * s.params.octaveSpan →
    0 ≤ (s.chan c).tstgt.toInt → (s.chan c).tstgt.toInt < 8 * s.params.octaveSpan →
    getLin c s ≠ (s.chan c).tstgt.toInt →
    ∃ t, runTicks k s = .next t ∧
      ((k : Int) * (s.chan c).tsstep.toNat < |(s.chan c).tstgt.toInt - getLin c s| →
        getLin c t = (if getLin c s < (s.chan c).tstgt.toInt then getLin c s + k * (s.chan c).tsstep.toNat
          else getLin c s - k * (s.chan c).tsstep.toNat) ∧ (t.chan c).tsact = true) ∧
      (|(s.chan c).tstgt.toInt - getLin c s| ≤ (k : Int) * (s.chan c).tsstep.toNat →
        getLin c t = (s.chan c).tstgt.toInt ∧ (t.chan c).tsact = false)

/-- A tone slide with step 0 (rule R136) away from its target makes no progress and stays armed through any number of ticks, until
FXCLR. -/
def Obligations.ZeroStepNeverArrives : Prop :=
  ∀ (s : State) (c : Chan) (k : Nat), s.params.admissible = true → (s.chan c).porta = 0 → (s.chan c).tsact = true →
    (s.chan c).tsstep = 0 → 0 ≤ getLin c s → getLin c s < 8 * s.params.octaveSpan → getLin c s ≠ (s.chan c).tstgt.toInt →
    ∃ t u, runTicks k s = .next t ∧ getLin c t = getLin c s ∧ (t.chan c).tsact = true ∧
      exec .fxclr t = .next u ∧ (u.chan c).tsact = false

/-- The portamento ramp (rule R131): after one tick or more the linear frequency is the start plus one delta a tick, reduced into
the eight octaves. -/
def Obligations.PortamentoRampWraps : Prop :=
  ∀ (s : State) (c : Chan) (k : Nat), s.params.admissible = true → (s.chan c).porta ≠ 0 → (s.chan c).tsact = false →
    ∃ t, runTicks (k + 1) s = .next t ∧
      getLin c t = (getLin c s + (k + 1) * (s.chan c).porta.toInt) % (8 * s.params.octaveSpan)

/-- The volume clamp law (rule R137, an inference of the spec's own): a volume slide runs to level 0 or 63 and stays there, the
scaling bits kept. -/
def Obligations.VolumeSlideIsClamped : Prop :=
  ∀ (s : State) (c : Chan) (k : Nat), ∃ t, runTicks k s = .next t ∧
    (getVol c t : Int) = max 0 (min 63 (getVol c s + k * (s.chan c).vsl.toInt)) ∧
    (t.chan c).vol.toNat / 64 = (s.chan c).vol.toNat / 64

/-- The round trips of rule R82, with its definition of a valid pair. -/
def Obligations.LinearFrequencyRoundTrips : Prop :=
  ∀ P : Params, P.admissible = true →
    (∀ (oct : BitVec 3) (f : BitVec 10), P.baseFnum ≤ f.toNat → f.toNat < P.baseFnum + P.octaveSpan →
      fromLinear P (toLinear P oct f) = (oct, f)) ∧
    (∀ lin : Int, 0 ≤ lin → lin < 8 * P.octaveSpan → toLinear P (fromLinear P lin).1 (fromLinear P lin).2 = lin) ∧
    ∀ lin : Int, toLinear P (fromLinear P lin).1 (fromLinear P lin).2 = floorMod lin (8 * P.octaveSpan)

/-- The volume round trip (rule R89, an inference of the spec's own), by SETVOL and then GETVOL. -/
def Obligations.VolumeRoundTrips : Prop :=
  ∀ (s : State) (ch : BitVec 4) (c : Chan) (level : BitVec 8), ch.toNat = c.val →
    ∃ (t : State) (x : I16), exec (.setvol ch level) s = .next t ∧ x.toInt = min level.toNat 63 ∧
      exec (.getvol ch) t = .next (answered t { err := .none, data := x, jump := 0, speedValid := false, speed := 0 }) ∧
      (t.chan c).vol.toNat / 64 = (s.chan c).vol.toNat / 64

/-- Every command ends, with one response and with no more writes than its rule can make (00_scope.md rule R8, an inference of the
spec's own). -/
def Obligations.EveryCommandEndsWithBoundedWrites : Prop :=
  ∀ (i : Instr) (s : State), ∃ t ws r, exec i s = .next t ∧ t.trace = s.trace ++ ws ∧ ws.length ≤ maxWrites i ∧
    t.responses = s.responses ++ [r] ∧ t.pending = s.pending

/-- The access table's `W` columns (10_state.md rule R22, an inference of the spec's own): a per-channel command touches its own channel
alone, and no command writes a register that its row does not give it, with SETNOTE's two rows apart. -/
def Obligations.AccessTableHolds : Prop :=
  ∀ (i : Instr) (s : State), ∃ t, exec i s = .next t ∧ (∀ c, unwrittenKept i (s.chan c) (t.chan c)) ∧
    ∀ (ch : BitVec 4) (c : Chan), channelField i = some ch → ch.toNat ≠ c.val → t.chan c = s.chan c

/-- A per-channel command learns nothing from the other channels, from the trace, from the chip or from earlier responses: two
states that agree on its channel, the parameters and the bank give the same writes, the same response and the same registers. -/
def Obligations.OtherChannelsDoNotInterfere : Prop :=
  ∀ (i : Instr) (ch : BitVec 4) (c : Chan) (s1 s2 : State), channelField i = some ch → ch.toNat = c.val →
    s1.params = s2.params → s1.bank = s2.bank → s1.chan c = s2.chan c →
    ∃ t1 t2 ws r, exec i s1 = .next t1 ∧ exec i s2 = .next t2 ∧ t1.chan c = t2.chan c ∧
      t1.trace = s1.trace ++ ws ∧ t2.trace = s2.trace ++ ws ∧
      t1.responses = s1.responses ++ [r] ∧ t2.responses = s2.responses ++ [r]

/-- The shadow invariant (10_state.md rule R20, an inference of the spec's own) is kept by every step, from every state that meets
it, for every admissible parameter record. -/
def Obligations.EveryStepKeepsTheShadowInvariant : Prop :=
  ∀ s t : State, s.params.admissible = true → s.ShadowInv → step s = .next t → t.ShadowInv

/-- Every step keeps the registers legal: `FHI` bits 7:6 zero, `PORTA`, `TSTGT` and `VSL` inside what the rules can store
(10_state.md rules R11, R12, R15, R18). -/
def Obligations.EveryStepKeepsRegistersLegal : Prop :=
  ∀ s t : State, s.params.admissible = true → s.RegsLegal → step s = .next t → t.RegsLegal

/-- Every step keeps both memories in canonical form. -/
def Obligations.EveryStepKeepsMemoriesCanonical : Prop := ∀ s t : State, s.MemInv → step s = .next t → t.MemInv

/-- Every step keeps the chip image the one that the write trace makes (20_memory.md rule R41). -/
def Obligations.EveryStepKeepsTheImage : Prop := ∀ s t : State, s.ImageInv → step s = .next t → t.ImageInv

/-- No step changes the parameters, and only the host's own bank byte changes the bank (10_state.md rule R33, 20_memory.md rule
R48). -/
def Obligations.NoStepChangesParametersOrBank : Prop :=
  ∀ s t : State, step s = .next t → t.params = s.params ∧
    ((∀ k i b rest, s.pending ≠ .bankByte k i b :: rest) → t.bank = s.bank)

/-- Writes leave in order (20_memory.md rule R44): while `rst` stays 0 a step only appends to `W`, and it appends only writes to the
registers of the map (rule R42). -/
def Obligations.WritesOnlyAppendMappedRegisters : Prop :=
  ∀ s t : State, s.params.admissible = true → s.rst = false → step s = .next t → t.rst = false →
    ∃ ws, t.trace = s.trace ++ ws ∧ ∀ p ∈ ws, ∃ reg : ChipReg, p.1 = s.params.addr reg

/-- Nothing stops the block: every step answers a next state. The model's deduction (log 7) from rules R8 (an inference of the spec's
own), R159 and R160, which name no stop. -/
def Obligations.EveryStepAnswersANextState : Prop := ∀ s : State, ∃ t, step s = .next t
end

