-- ==== Sys2Proof/Laws/Bits.lean ====
section
/-! SUPPORT. The bit fields as arithmetic: what each byte the block stores is as a number (10_state.md rules R17 to R19), and the laws of
the linear frequency (40_driver.md rules R80 to R82) that follow. -/

namespace Sys2Proof.Machine

theorem floorMod_eq (a b : Int) : floorMod a b = a % b := by
  have := Int.emod_add_mul_ediv a b
  unfold floorMod floorDiv
  rw [Int.mul_comm (a / b) b]
  omega

theorem fnumLow_toNat (f : BitVec 10) : (fnumLow f).toNat = f.toNat % 256 := by
  simp [fnumLow, BitVec.extractLsb'_toNat]

theorem pitch_bits : ∀ (oct : BitVec 3) (g : BitVec 2), ((oct.setWidth 8 <<< 2) ||| g.setWidth 8).toNat = 4 * oct.toNat + g.toNat := by
  decide

theorem pitchHigh_toNat (oct : BitVec 3) (f : BitVec 10) : (pitchHigh oct f).toNat = 4 * oct.toNat + f.toNat / 256 := by
  have h : (f.extractLsb' 8 2).toNat = f.toNat / 256 := by
    have := f.isLt
    rw [BitVec.extractLsb'_toNat, Nat.shiftRight_eq_div_pow]
    omega
  rw [pitchHigh, pitch_bits, h]

theorem kon_bit : ∀ b : Byte, b &&& 0x20 = if b.toNat / 32 % 2 = 1 then 0x20 else 0 := by decide

theorem or_low_bits : ∀ b : Byte, b.toNat < 32 → (0x20 ||| b).toNat = 32 + b.toNat := by decide

theorem pitchHigh_lt (oct : BitVec 3) (f : BitVec 10) : (pitchHigh oct f).toNat < 32 := by
  have := f.isLt
  have := oct.isLt
  rw [pitchHigh_toNat]
  omega

/-- `FHI` after a note-on (rule R83). -/
theorem fhi_noteOn_toNat (oct : BitVec 3) (f : BitVec 10) :
    (0x20 ||| pitchHigh oct f).toNat = 32 + (4 * oct.toNat + f.toNat / 256) := by
  rw [or_low_bits _ (pitchHigh_lt oct f), pitchHigh_toNat]

/-- `FHI` after `setLin` (rule R85): the key-on bit of before, the new pitch bits. -/
theorem fhi_setLin_toNat (fhi : Byte) (oct : BitVec 3) (f : BitVec 10) :
    ((fhi &&& 0x20) ||| pitchHigh oct f).toNat = fhi.toNat / 32 % 2 * 32 + (4 * oct.toNat + f.toNat / 256) := by
  rw [kon_bit]
  split
  · next h => rw [fhi_noteOn_toNat, h]
  · next h =>
    have h0 : fhi.toNat / 32 % 2 = 0 := by omega
    rw [h0, ← pitchHigh_toNat]
    simp

theorem fhiKeyedOff_toNat : ∀ fhi : Byte, (fhiKeyedOff fhi).toNat = fhi.toNat % 32 := by decide

theorem channel_oct_toNat (r : Channel) : r.oct.toNat = r.fhi.toNat / 4 % 8 := by
  rw [Channel.oct, BitVec.extractLsb'_toNat, Nat.shiftRight_eq_div_pow]

theorem channel_fnum_toNat (r : Channel) : r.fnum.toNat = r.fhi.toNat % 4 * 256 + r.flo.toNat := by
  have h := r.flo.isLt
  rw [Channel.fnum, BitVec.toNat_append, Nat.shiftLeft_eq, BitVec.extractLsb'_toNat, Nat.shiftRight_zero,
    ← Nat.shiftLeft_eq, ← Nat.shiftLeft_add_eq_or_of_lt h, Nat.shiftLeft_eq]

theorem channel_level (r : Channel) : r.level = 63 - r.vol.toNat % 64 := by
  simp [Channel.level, BitVec.extractLsb'_toNat]

theorem level_le (r : Channel) : r.level ≤ 63 := by
  rw [channel_level]
  omega

theorem vol_bits : ∀ (b : Byte) (k : Fin 64), ((b &&& 0xC0) ||| BitVec.ofNat 8 k).toNat = b.toNat / 64 * 64 + k := by
  have h : ∀ b : Byte, b &&& 0xC0 = BitVec.ofNat 8 (b.toNat / 64 * 64) := by decide
  have h4 : ∀ (j : Fin 4) (k : Fin 64), (BitVec.ofNat 8 (j * 64) ||| BitVec.ofNat 8 k).toNat = j * 64 + (k : Nat) := by decide
  intro b k
  have hb := b.isLt
  rw [h]
  exact h4 ⟨b.toNat / 64, by omega⟩ k

/-- `VOL` after `setVol` (rule R88): the scaling bits of before, the level clamped and inverted. -/
theorem volWithLevel_toNat (vol : Byte) (level : Nat) :
    (volWithLevel vol level).toNat = vol.toNat / 64 * 64 + (63 - min level 63) :=
  vol_bits vol ⟨63 - min level 63, by omega⟩

/-- The linear frequency of a shadow as a number (rules R80, R86). -/
theorem channel_linear (P : Params) (r : Channel) :
    r.linear P = ((r.fhi.toNat / 4 % 8 : Nat) : Int) * P.octaveSpan + ((r.fhi.toNat % 4 * 256 + r.flo.toNat : Nat) : Int) - P.baseFnum := by
  rw [Channel.linear, toLinear, channel_oct_toNat, channel_fnum_toNat]

/-- `fromLinear` on a number split into octaves and remainder (rule R81). -/
theorem fromLinear_split {P : Params} {q r : Int} (h0 : 0 ≤ r) (h1 : r < P.octaveSpan) (hP : P.baseFnum + P.octaveSpan ≤ 1024) :
    ((fromLinear P (q * P.octaveSpan + r)).1.toNat : Int) = q % 8 ∧
      ((fromLinear P (q * P.octaveSpan + r)).2.toNat : Int) = P.baseFnum + r := by
  have hq : (q * P.octaveSpan + r) / (P.octaveSpan : Int) = q := by
    rw [Int.add_comm, Int.add_mul_ediv_right _ _ (by omega), Int.ediv_eq_zero_of_lt h0 h1, Int.zero_add]
  have hr : (q * P.octaveSpan + r) % (P.octaveSpan : Int) = r := by
    rw [Int.add_comm, Int.add_mul_emod_self_right, Int.emod_eq_of_lt h0 h1]
  have h8 : 0 ≤ q % 8 ∧ q % 8 < 8 := by omega
  constructor
  · simp only [fromLinear, floorMod_eq, floorDiv, hq, BitVec.toNat_ofInt]
    omega
  · simp only [fromLinear, floorMod_eq, hr, BitVec.toNat_ofInt]
    omega

theorem withLinear_flo_toNat (P : Params) (lin : Int) (r : Channel) :
    (r.withLinear P lin).flo.toNat = (fromLinear P lin).2.toNat % 256 := fnumLow_toNat _

theorem withLinear_fhi_toNat (P : Params) (lin : Int) (r : Channel) :
    (r.withLinear P lin).fhi.toNat =
      r.fhi.toNat / 32 % 2 * 32 + (4 * (fromLinear P lin).1.toNat + (fromLinear P lin).2.toNat / 256) := fhi_setLin_toNat ..

/-- A number reduced into eight octaves keeps its offset and its octave modulo 8. -/
theorem emod_eight_mul {span : Int} (h : 0 < span) (x : Int) : x % (8 * span) = x / span % 8 * span + x % span := by
  have hr0 := Int.emod_nonneg x (Int.ne_of_gt h)
  have hr1 := Int.emod_lt_of_pos x h
  have hx : x = x / span % 8 * span + x % span + 8 * span * (x / span / 8) := by
    have h1 := Int.mul_ediv_add_emod x span
    have h2 := Int.mul_ediv_add_emod (x / span) 8
    linear_combination (-1) * h1 - span * h2
  have hq : 0 ≤ x / span % 8 ∧ x / span % 8 ≤ 7 := by omega
  have lo : 0 ≤ x / span % 8 * span := Int.mul_nonneg hq.1 (Int.le_of_lt h)
  have hi : x / span % 8 * span ≤ 7 * span := Int.mul_le_mul_of_nonneg_right hq.2 (Int.le_of_lt h)
  conv_lhs => rw [hx]
  rw [Int.add_mul_emod_self_left, Int.emod_eq_of_lt (by omega) (by omega)]

/-- The shadow of `setLin` read back (rules R82, R86): the number itself, reduced into the eight octaves. -/
theorem linear_withLinear {P : Params} (h1 : 1 ≤ P.octaveSpan) (hP : P.baseFnum + P.octaveSpan ≤ 1024) (lin : Int) (r : Channel) :
    (r.withLinear P lin).linear P = lin % (8 * P.octaveSpan) := by
  obtain ⟨ho, hf⟩ := fromLinear_split (P := P) (q := lin / P.octaveSpan) (r := lin % P.octaveSpan)
    (Int.emod_nonneg _ (by omega)) (Int.emod_lt_of_pos _ (by omega)) hP
  rw [Int.mul_comm, Int.mul_ediv_add_emod] at ho hf
  have hb := (fromLinear P lin).2.isLt
  have ho8 := (fromLinear P lin).1.isLt
  rw [channel_linear, withLinear_flo_toNat, withLinear_fhi_toNat]
  have e1 : (r.fhi.toNat / 32 % 2 * 32 + (4 * (fromLinear P lin).1.toNat + (fromLinear P lin).2.toNat / 256)) / 4 % 8
      = (fromLinear P lin).1.toNat := by omega
  have e2 : (r.fhi.toNat / 32 % 2 * 32 + (4 * (fromLinear P lin).1.toNat + (fromLinear P lin).2.toNat / 256)) % 4 * 256
      + (fromLinear P lin).2.toNat % 256 = (fromLinear P lin).2.toNat := by omega
  rw [e1, e2, ho, hf]
  rw [emod_eight_mul (by omega)]
  ring

end Sys2Proof.Machine
end

