-- ==== Sys2Proof/Laws/Mem.lean ====
section
/-! SUPPORT. The laws of the byte memories: a read after a write to the same address gives the byte written, every other address reads
as before, and a write keeps the canonical form. -/

namespace Sys2Proof.Machine

@[simp] theorem Mem.read_nil (a : Nat) : Mem.read a [] = none := rfl

@[simp] theorem Mem.read_cons (a : Nat) (c : Host.Cell) (m : Mem) :
    Mem.read a (c :: m) = if c.1 = a then some c.2 else Mem.read a m := rfl

/-- A read of the address just written. -/
@[simp] theorem Mem.read_write_self (a : Nat) (b : Byte) (m : Mem) : Mem.read a (Mem.write a b m) = some b := by
  induction m with
  | nil => simp [Mem.write]
  | cons c m ih =>
    simp only [Mem.write]
    split
    · simp
    · split
      · simp
      · next h => simp [ih, Ne.symm h]

/-- A write leaves every other address alone. -/
theorem Mem.read_write_ne {a x : Nat} (b : Byte) (m : Mem) (h : x ≠ a) : Mem.read x (Mem.write a b m) = Mem.read x m := by
  induction m with
  | nil => simp [Mem.write, Ne.symm h]
  | cons c m ih =>
    simp only [Mem.write]
    split
    · simp [Ne.symm h]
    · split
      · next h2 => simp [← h2, Ne.symm h]
      · simp [ih]

/-- The addresses a write leaves listed. -/
theorem Mem.mem_write {a : Nat} {b : Byte} {m : Mem} {d : Host.Cell} (h : d ∈ Mem.write a b m) : d = (a, b) ∨ d ∈ m := by
  induction m with
  | nil => simpa [Mem.write] using h
  | cons c m ih =>
    simp only [Mem.write] at h
    split at h
    · simpa using h
    · split at h
      · simp only [List.mem_cons] at h ⊢
        exact h.imp id .inr
      · simp only [List.mem_cons] at h ⊢
        rcases h with rfl | h
        · exact .inr (.inl rfl)
        · exact (ih h).imp id .inr

/-- A write inside the memory keeps its canonical form. -/
theorem Mem.wf_write {size a : Nat} (b : Byte) {m : Mem} (ha : a < size) (hm : Mem.wf size m = true) :
    Mem.wf size (Mem.write a b m) = true := by
  induction m with
  | nil => simp [Mem.write, Mem.wf, ha]
  | cons c m ih =>
    simp only [Mem.wf, Bool.and_eq_true, decide_eq_true_eq, List.all_eq_true] at hm
    obtain ⟨⟨hc, hlt⟩, hwf⟩ := hm
    simp only [Mem.write]
    split
    · next h =>
      simp only [Mem.wf, Bool.and_eq_true, decide_eq_true_eq, List.all_eq_true, List.mem_cons]
      refine ⟨⟨ha, ?_⟩, ⟨hc, hlt⟩, hwf⟩
      rintro d (rfl | hd)
      · exact h
      · exact h.trans (hlt d hd)
    · split
      · next h1 h2 =>
        subst h2
        simp only [Mem.wf, Bool.and_eq_true, decide_eq_true_eq, List.all_eq_true]
        exact ⟨⟨ha, hlt⟩, hwf⟩
      · next h1 h2 =>
        simp only [Mem.wf, Bool.and_eq_true, decide_eq_true_eq, List.all_eq_true]
        refine ⟨⟨hc, fun d hd => ?_⟩, ih hwf⟩
        rcases Mem.mem_write hd with rfl | hd
        · show c.1 < a
          omega
        · exact hlt d hd

/-- Every bank address lies below 341 (20_memory.md rule R49). -/
theorem bankAddr_lt (k : Slot) (i : Offset) : bankAddr k i < 341 := by
  unfold bankAddr
  omega

/-- Two bank addresses are equal only for the same byte of the same slot (rule R49). -/
theorem bankAddr_inj {k l : Slot} {i j : Offset} (h : bankAddr k i = bankAddr l j) : k = l ∧ i = j := by
  unfold bankAddr at h
  exact ⟨Fin.ext (by omega), Fin.ext (by omega)⟩

end Sys2Proof.Machine
end

