-- ==== Sys2Proof/Laws/State.lean ====
section
/-! SUPPORT. One lemma per field per update of the state, each true by unfolding the update once, so that no later proof unfolds a
record update. -/

namespace Sys2Proof.Machine

@[simp] theorem State.setChan_params (s : State) (c : Chan) (r : Channel) : (s.setChan c r).params = s.params := rfl
@[simp] theorem State.setChan_bank (s : State) (c : Chan) (r : Channel) : (s.setChan c r).bank = s.bank := rfl
@[simp] theorem State.setChan_chans (s : State) (c : Chan) (r : Channel) : (s.setChan c r).chans = s.chans.set c r := rfl
@[simp] theorem State.setChan_trace (s : State) (c : Chan) (r : Channel) : (s.setChan c r).trace = s.trace := rfl
@[simp] theorem State.setChan_chip (s : State) (c : Chan) (r : Channel) : (s.setChan c r).chip = s.chip := rfl
@[simp] theorem State.setChan_responses (s : State) (c : Chan) (r : Channel) : (s.setChan c r).responses = s.responses := rfl
@[simp] theorem State.setChan_rst (s : State) (c : Chan) (r : Channel) : (s.setChan c r).rst = s.rst := rfl
@[simp] theorem State.setChan_pending (s : State) (c : Chan) (r : Channel) : (s.setChan c r).pending = s.pending := rfl
@[simp] theorem State.setChan_chipByte (s : State) (c : Chan) (r : Channel) (x : Byte) : (s.setChan c r).chipByte x = s.chipByte x := rfl
@[simp] theorem State.setChan_insRead (s : State) (c : Chan) (r : Channel) (k : Slot) (i : Offset) : (s.setChan c r).insRead k i = s.insRead k i := rfl

@[simp] theorem State.chipWrite_params (s : State) (a d : Byte) : (s.chipWrite a d).params = s.params := rfl
@[simp] theorem State.chipWrite_bank (s : State) (a d : Byte) : (s.chipWrite a d).bank = s.bank := rfl
@[simp] theorem State.chipWrite_chans (s : State) (a d : Byte) : (s.chipWrite a d).chans = s.chans := rfl
@[simp] theorem State.chipWrite_trace (s : State) (a d : Byte) : (s.chipWrite a d).trace = s.trace ++ [(a, d)] := rfl
@[simp] theorem State.chipWrite_chip (s : State) (a d : Byte) : (s.chipWrite a d).chip = Mem.write a.toNat d s.chip := rfl
@[simp] theorem State.chipWrite_responses (s : State) (a d : Byte) : (s.chipWrite a d).responses = s.responses := rfl
@[simp] theorem State.chipWrite_rst (s : State) (a d : Byte) : (s.chipWrite a d).rst = s.rst := rfl
@[simp] theorem State.chipWrite_pending (s : State) (a d : Byte) : (s.chipWrite a d).pending = s.pending := rfl
@[simp] theorem State.chipWrite_chan (s : State) (a d : Byte) (e : Chan) : (s.chipWrite a d).chan e = s.chan e := rfl
@[simp] theorem State.chipWrite_insRead (s : State) (a d : Byte) (k : Slot) (i : Offset) : (s.chipWrite a d).insRead k i = s.insRead k i := rfl

@[simp] theorem State.respond_params (s : State) (r : Response) : (s.respond r).params = s.params := rfl
@[simp] theorem State.respond_bank (s : State) (r : Response) : (s.respond r).bank = s.bank := rfl
@[simp] theorem State.respond_chans (s : State) (r : Response) : (s.respond r).chans = s.chans := rfl
@[simp] theorem State.respond_trace (s : State) (r : Response) : (s.respond r).trace = s.trace := rfl
@[simp] theorem State.respond_chip (s : State) (r : Response) : (s.respond r).chip = s.chip := rfl
@[simp] theorem State.respond_responses (s : State) (r : Response) : (s.respond r).responses = s.responses ++ [r] := rfl
@[simp] theorem State.respond_rst (s : State) (r : Response) : (s.respond r).rst = s.rst := rfl
@[simp] theorem State.respond_pending (s : State) (r : Response) : (s.respond r).pending = s.pending := rfl
@[simp] theorem State.respond_chan (s : State) (r : Response) (e : Chan) : (s.respond r).chan e = s.chan e := rfl
@[simp] theorem State.respond_chipByte (s : State) (r : Response) (x : Byte) : (s.respond r).chipByte x = s.chipByte x := rfl
@[simp] theorem State.respond_insRead (s : State) (r : Response) (k : Slot) (i : Offset) : (s.respond r).insRead k i = s.insRead k i := rfl

@[simp] theorem State.applyReset_params (s : State) : (s.applyReset).params = s.params := rfl
@[simp] theorem State.applyReset_bank (s : State) : (s.applyReset).bank = s.bank := rfl
@[simp] theorem State.applyReset_chans (s : State) : (s.applyReset).chans = Vector.replicate 9 Channel.reset := rfl
@[simp] theorem State.applyReset_trace (s : State) : (s.applyReset).trace = [] := rfl
@[simp] theorem State.applyReset_chip (s : State) : (s.applyReset).chip = [] := rfl
@[simp] theorem State.applyReset_responses (s : State) : (s.applyReset).responses = s.responses := rfl
@[simp] theorem State.applyReset_rst (s : State) : (s.applyReset).rst = s.rst := rfl
@[simp] theorem State.applyReset_pending (s : State) : (s.applyReset).pending = s.pending := rfl
@[simp] theorem State.applyReset_insRead (s : State) (k : Slot) (i : Offset) : (s.applyReset).insRead k i = s.insRead k i := rfl

@[simp] theorem State.driveRst_params (s : State) (level : Bool) : (s.driveRst level).params = s.params := rfl
@[simp] theorem State.driveRst_bank (s : State) (level : Bool) : (s.driveRst level).bank = s.bank := rfl
@[simp] theorem State.driveRst_chans (s : State) (level : Bool) : (s.driveRst level).chans = s.chans := rfl
@[simp] theorem State.driveRst_trace (s : State) (level : Bool) : (s.driveRst level).trace = s.trace := rfl
@[simp] theorem State.driveRst_chip (s : State) (level : Bool) : (s.driveRst level).chip = s.chip := rfl
@[simp] theorem State.driveRst_responses (s : State) (level : Bool) : (s.driveRst level).responses = s.responses := rfl
@[simp] theorem State.driveRst_rst (s : State) (level : Bool) : (s.driveRst level).rst = level := rfl
@[simp] theorem State.driveRst_pending (s : State) (level : Bool) : (s.driveRst level).pending = s.pending := rfl
@[simp] theorem State.driveRst_chan (s : State) (level : Bool) (e : Chan) : (s.driveRst level).chan e = s.chan e := rfl
@[simp] theorem State.driveRst_chipByte (s : State) (level : Bool) (x : Byte) : (s.driveRst level).chipByte x = s.chipByte x := rfl
@[simp] theorem State.driveRst_insRead (s : State) (level : Bool) (k : Slot) (i : Offset) : (s.driveRst level).insRead k i = s.insRead k i := rfl

@[simp] theorem State.loadBankByte_params (s : State) (slot : Slot) (off : Offset) (b : Byte) : (s.loadBankByte slot off b).params = s.params := rfl
@[simp] theorem State.loadBankByte_bank (s : State) (slot : Slot) (off : Offset) (b : Byte) : (s.loadBankByte slot off b).bank = Mem.write (bankAddr slot off) b s.bank := rfl
@[simp] theorem State.loadBankByte_chans (s : State) (slot : Slot) (off : Offset) (b : Byte) : (s.loadBankByte slot off b).chans = s.chans := rfl
@[simp] theorem State.loadBankByte_trace (s : State) (slot : Slot) (off : Offset) (b : Byte) : (s.loadBankByte slot off b).trace = s.trace := rfl
@[simp] theorem State.loadBankByte_chip (s : State) (slot : Slot) (off : Offset) (b : Byte) : (s.loadBankByte slot off b).chip = s.chip := rfl
@[simp] theorem State.loadBankByte_responses (s : State) (slot : Slot) (off : Offset) (b : Byte) : (s.loadBankByte slot off b).responses = s.responses := rfl
@[simp] theorem State.loadBankByte_rst (s : State) (slot : Slot) (off : Offset) (b : Byte) : (s.loadBankByte slot off b).rst = s.rst := rfl
@[simp] theorem State.loadBankByte_pending (s : State) (slot : Slot) (off : Offset) (b : Byte) : (s.loadBankByte slot off b).pending = s.pending := rfl
@[simp] theorem State.loadBankByte_chan (s : State) (slot : Slot) (off : Offset) (b : Byte) (e : Chan) : (s.loadBankByte slot off b).chan e = s.chan e := rfl
@[simp] theorem State.loadBankByte_chipByte (s : State) (slot : Slot) (off : Offset) (b : Byte) (x : Byte) : (s.loadBankByte slot off b).chipByte x = s.chipByte x := rfl

@[simp] theorem State.present_params (s : State) (w : Word) : (s.present w).params = s.params := rfl
@[simp] theorem State.present_bank (s : State) (w : Word) : (s.present w).bank = s.bank := rfl
@[simp] theorem State.present_chans (s : State) (w : Word) : (s.present w).chans = s.chans := rfl
@[simp] theorem State.present_trace (s : State) (w : Word) : (s.present w).trace = s.trace := rfl
@[simp] theorem State.present_chip (s : State) (w : Word) : (s.present w).chip = s.chip := rfl
@[simp] theorem State.present_responses (s : State) (w : Word) : (s.present w).responses = s.responses := rfl
@[simp] theorem State.present_rst (s : State) (w : Word) : (s.present w).rst = s.rst := rfl
@[simp] theorem State.present_pending (s : State) (w : Word) : (s.present w).pending = .command w :: s.pending := rfl
@[simp] theorem State.present_chan (s : State) (w : Word) (e : Chan) : (s.present w).chan e = s.chan e := rfl
@[simp] theorem State.present_chipByte (s : State) (w : Word) (x : Byte) : (s.present w).chipByte x = s.chipByte x := rfl
@[simp] theorem State.present_insRead (s : State) (w : Word) (k : Slot) (i : Offset) : (s.present w).insRead k i = s.insRead k i := rfl

/-- Reading back the channel just written. -/
@[simp] theorem State.setChan_chan_self (s : State) (c : Chan) (r : Channel) : (s.setChan c r).chan c = r := by
  simp [State.chan, State.setChan]

/-- Every other channel is untouched. -/
theorem State.setChan_chan_ne (s : State) {c e : Chan} (r : Channel) (h : e ≠ c) : (s.setChan c r).chan e = s.chan e := by
  have h' : (c : Nat) ≠ e := fun hc => h (Fin.ext hc.symm)
  simp [State.chan, State.setChan, h']

/-- Both cases of reading after writing a channel. -/
theorem State.setChan_chan (s : State) (c e : Chan) (r : Channel) :
    (s.setChan c r).chan e = if e = c then r else s.chan e := by
  split
  · next h => rw [h, State.setChan_chan_self]
  · next h => exact State.setChan_chan_ne s r h

/-- Every channel of a block held in reset is at its reset value. -/
@[simp] theorem State.applyReset_chan (s : State) (e : Chan) : s.applyReset.chan e = Channel.reset := by
  simp [State.chan]

/-- A block held in reset has written nothing to the chip since reset. -/
@[simp] theorem State.applyReset_chipByte (s : State) (x : Byte) : s.applyReset.chipByte x = none := rfl

/-- Every channel right after reset is at its reset value. -/
@[simp] theorem State.resetWith_chan (P : Params) (bank : Mem) (e : Chan) : (State.resetWith P bank).chan e = Channel.reset := by
  simp [State.chan, State.resetWith]

/-- Two states with the same fields and the same nine channels are the same state. -/
theorem State.eq_of_fields {s t : State} (hp : t.params = s.params) (hb : t.bank = s.bank)
    (hc : ∀ c : Chan, t.chan c = s.chan c) (hw : t.trace = s.trace) (hm : t.chip = s.chip)
    (hr : t.responses = s.responses) (hrst : t.rst = s.rst) (hq : t.pending = s.pending) : t = s := by
  obtain ⟨P, b, cs, w, m, rs, x, q⟩ := s
  obtain ⟨P', b', cs', w', m', rs', x', q'⟩ := t
  have : cs' = cs := Vector.ext fun i hi => hc ⟨i, hi⟩
  simp_all

end Sys2Proof.Machine
end

