-- ==== Sys2Proof/Laws/Ops.lean ====
section
/-! SUPPORT. What each shared operation can do, said once: the writes it makes (`Wrote`) and the registers it leaves (`..._chan`). Every
later proof about a command cites these and unfolds no operation. -/

namespace Sys2Proof.Machine

/-- From `s` to `t` exactly the writes `ws` left the block, and nothing but registers and the chip's side changed. -/
def Wrote (s t : State) (ws : List (Byte × Byte)) : Prop :=
  t.trace = s.trace ++ ws ∧ (∀ a, t.chipByte a = (lastWrite ws a).or (s.chipByte a)) ∧ t.responses = s.responses ∧
    t.params = s.params ∧ t.bank = s.bank ∧ t.rst = s.rst ∧ t.pending = s.pending

theorem lastWrite_nil (a : Byte) : lastWrite [] a = none := rfl

/-- Reading the last write, newest write first. -/
theorem lastWrite_concat (ws : List (Byte × Byte)) (p : Byte × Byte) (a : Byte) :
    lastWrite (ws ++ [p]) a = if p.1 = a then some p.2 else lastWrite ws a := by
  simp [lastWrite, List.foldl_append]

/-- The last write of two lists is the later list's, where it has one. -/
theorem lastWrite_append (ws vs : List (Byte × Byte)) (a : Byte) :
    lastWrite (ws ++ vs) a = (lastWrite vs a).or (lastWrite ws a) := by
  induction vs using List.reverseRecOn with
  | nil => simp [lastWrite_nil]
  | append_singleton vs p ih =>
    rw [← List.append_assoc, lastWrite_concat, lastWrite_concat, ih]
    split <;> simp

/-- An address no write names has no last write. -/
theorem lastWrite_eq_none {ws : List (Byte × Byte)} {a : Byte} (h : ∀ p ∈ ws, p.1 ≠ a) : lastWrite ws a = none := by
  induction ws using List.reverseRecOn with
  | nil => rfl
  | append_singleton ws p ih =>
    rw [lastWrite_concat, if_neg (h p (by simp)), ih fun q hq => h q (by simp [hq])]

/-- The last write to an address is one of the writes. -/
theorem mem_of_lastWrite {ws : List (Byte × Byte)} {a b : Byte} (h : lastWrite ws a = some b) : (a, b) ∈ ws := by
  induction ws using List.reverseRecOn with
  | nil => simp [lastWrite_nil] at h
  | append_singleton ws p ih =>
    rw [lastWrite_concat] at h
    split at h
    · next hp =>
      obtain ⟨x, y⟩ := p
      simp_all
    · simp [ih h]

theorem Wrote.refl (s : State) : Wrote s s [] := by simp [Wrote, lastWrite_nil]

theorem Wrote.trans {s t u : State} {ws vs : List (Byte × Byte)} (h : Wrote s t ws) (k : Wrote t u vs) : Wrote s u (ws ++ vs) := by
  obtain ⟨h1, h2, h3, h4, h5, h6, h7⟩ := h
  obtain ⟨k1, k2, k3, k4, k5, k6, k7⟩ := k
  refine ⟨by rw [k1, h1, List.append_assoc], fun a => ?_, k3.trans h3, k4.trans h4, k5.trans h5, k6.trans h6, k7.trans h7⟩
  rw [k2, h2, lastWrite_append]
  cases lastWrite vs a <;> simp

theorem Wrote.params {s t : State} {ws : List (Byte × Byte)} (h : Wrote s t ws) : t.params = s.params := h.2.2.2.1

theorem Wrote.bank {s t : State} {ws : List (Byte × Byte)} (h : Wrote s t ws) : t.bank = s.bank := h.2.2.2.2.1

/-- The bank's bytes are the same before and after. -/
theorem Wrote.insRead {s t : State} {ws : List (Byte × Byte)} (h : Wrote s t ws) (k : Slot) (i : Offset) :
    t.insRead k i = s.insRead k i := by
  simp [State.insRead, h.bank]

/-- Responding ends a command that made the writes `ws`. -/
theorem Wrote.ran {s t : State} {ws : List (Byte × Byte)} (h : Wrote s t ws) (r : Response) : Ran s (t.respond r) ws r := by
  obtain ⟨h1, h2, h3, h4, h5, h6, h7⟩ := h
  exact ⟨h1, h2, by simp [h3], h4, h5, h6, h7⟩

theorem setChan_wrote (s : State) (c : Chan) (r : Channel) : Wrote s (s.setChan c r) [] := by simp [Wrote, lastWrite_nil]

/-- `ChipWrite` (rule R41): one write, the image's address set, every other address as before. -/
theorem chipWrite_wrote (s : State) (a d : Byte) : Wrote s (s.chipWrite a d) [(a, d)] := by
  refine ⟨rfl, fun x => ?_, rfl, rfl, rfl, rfl, rfl⟩
  have e : lastWrite [(a, d)] x = if a = x then some d else none := rfl
  rw [e]
  by_cases hx : a = x
  · simp [State.chipByte, hx]
  · have hn : x.toNat ≠ a.toNat := fun h => hx (BitVec.eq_of_toNat_eq h.symm)
    simp [State.chipByte, Mem.read_write_ne d s.chip hn, hx]

/-- A register update followed by one write of it. -/
theorem setChan_chipWrite_wrote (s : State) (c : Chan) (r : Channel) (a d : Byte) :
    Wrote s ((s.setChan c r).chipWrite a d) [(a, d)] := by
  simpa using (setChan_wrote s c r).trans (chipWrite_wrote (s.setChan c r) a d)

theorem writeFrequency_wrote (c : Chan) (lo hi : Byte) (s : State) :
    Wrote s (writeFrequency c lo hi s) [(s.params.floAddr c, lo), (s.params.fhiAddr c, hi)] :=
  (setChan_chipWrite_wrote s c { s.chan c with flo := lo, fhi := hi } (s.params.floAddr c) lo).trans (chipWrite_wrote _ _ _)

theorem writeFrequency_chan (c : Chan) (lo hi : Byte) (s : State) (e : Chan) :
    (writeFrequency c lo hi s).chan e = if e = c then { s.chan c with flo := lo, fhi := hi } else s.chan e := by
  simp [writeFrequency, State.setChan_chan]

theorem noteOn_wrote (c : Chan) (oct : BitVec 3) (n : Fin 12) (s : State) :
    Wrote s (noteOn c oct n s) [(s.params.floAddr c, fnumLow (s.params.noteFnum n)),
      (s.params.fhiAddr c, 0x20 ||| pitchHigh oct (s.params.noteFnum n))] :=
  writeFrequency_wrote ..

theorem noteOn_chan (c : Chan) (oct : BitVec 3) (n : Fin 12) (s : State) (e : Chan) :
    (noteOn c oct n s).chan e = if e = c then
      { s.chan c with flo := fnumLow (s.params.noteFnum n), fhi := 0x20 ||| pitchHigh oct (s.params.noteFnum n) }
      else s.chan e :=
  writeFrequency_chan ..

theorem keyOff_wrote (c : Chan) (s : State) :
    Wrote s (keyOff c s) [(s.params.fhiAddr c, fhiKeyedOff (s.chan c).fhi)] :=
  setChan_chipWrite_wrote ..

theorem keyOff_chan (c : Chan) (s : State) (e : Chan) :
    (keyOff c s).chan e = if e = c then { s.chan c with fhi := fhiKeyedOff (s.chan c).fhi } else s.chan e := by
  simp [keyOff, State.setChan_chan]

/-- `setLin` (rule R85): the two writes of the new pair. -/
theorem setLin_wrote (c : Chan) (lin : Int) (s : State) :
    Wrote s (setLin c lin s) (freqWrites s.params c ((s.chan c).withLinear s.params lin)) :=
  writeFrequency_wrote ..

theorem setLin_chan (c : Chan) (lin : Int) (s : State) (e : Chan) :
    (setLin c lin s).chan e = if e = c then (s.chan c).withLinear s.params lin else s.chan e :=
  writeFrequency_chan ..

theorem setVol_wrote (c : Chan) (level : Nat) (s : State) :
    Wrote s (setVol c level s) [(s.params.volAddr c, volWithLevel (s.chan c).vol level)] :=
  setChan_chipWrite_wrote ..

theorem setVol_chan (c : Chan) (level : Nat) (s : State) (e : Chan) :
    (setVol c level s).chan e = if e = c then { s.chan c with vol := volWithLevel (s.chan c).vol level } else s.chan e := by
  simp [setVol, State.setChan_chan]

/-- The loop of `loadIns` over any offsets: one write each, in order, no register touched. -/
theorem writeInsBytes_wrote (idx : Slot) (c : Chan) (is : List Offset) (s : State) :
    Wrote s (is.foldl (writeInsByte idx c) s) (is.map fun i => (s.params.insAddr i c, s.insRead idx i)) ∧
      AllChannelsKept s (is.foldl (writeInsByte idx c) s) := by
  induction is generalizing s with
  | nil => exact ⟨Wrote.refl s, fun _ => rfl⟩
  | cons i is ih =>
    obtain ⟨hw, hk⟩ := ih (writeInsByte idx c s i)
    exact ⟨(chipWrite_wrote s _ _).trans hw, fun e => hk e⟩

/-- The eleven writes of `loadIns` (rules R90, R91). -/
def insWrites (s : State) (idx : Slot) (c : Chan) : List (Byte × Byte) :=
  allOffsets.map fun i => (s.params.insAddr i c, s.insRead idx i)

theorem loadIns_wrote (idx : Slot) (c : Chan) (s : State) : Wrote s (loadIns idx c s) (insWrites s idx c) := by
  have h := (writeInsBytes_wrote idx c allOffsets s).1.trans (setChan_wrote _ c
    { (allOffsets.foldl (writeInsByte idx c) s).chan c with vol := s.insRead idx s.params.carrierIdx })
  rw [List.append_nil] at h
  exact h

theorem loadIns_chan (idx : Slot) (c : Chan) (s : State) (e : Chan) :
    (loadIns idx c s).chan e = if e = c then { s.chan c with vol := s.insRead idx s.params.carrierIdx } else s.chan e := by
  have hk := (writeInsBytes_wrote idx c allOffsets s).2
  simp only [loadIns, State.setChan_chan, hk c, hk e]

/-- A loop over channels whose body touches one channel alone, by a function `g` of its registers, with writes `w` of its registers:
each listed channel is changed once, and the writes stand in the list's order. -/
theorem foldl_channelwise (f : State → Chan → State) (g : Params → Channel → Channel)
    (w : Params → Chan → Channel → List (Byte × Byte))
    (hw : ∀ s c, Wrote s (f s c) (w s.params c (s.chan c)))
    (hg : ∀ s c e, (f s c).chan e = if e = c then g s.params (s.chan c) else s.chan e)
    (cs : List Chan) (hn : cs.Nodup) (s : State) :
    Wrote s (cs.foldl f s) (cs.flatMap fun c => w s.params c (s.chan c)) ∧
      ∀ e, (cs.foldl f s).chan e = if e ∈ cs then g s.params (s.chan e) else s.chan e := by
  induction cs generalizing s with
  | nil => exact ⟨Wrote.refl s, fun _ => by simp⟩
  | cons c cs ih =>
    obtain ⟨hnc, hncs⟩ := List.nodup_cons.mp hn
    obtain ⟨hw', hg'⟩ := ih hncs (f s c)
    have hsame : (cs.flatMap fun d => w (f s c).params d ((f s c).chan d)) = cs.flatMap fun d => w s.params d (s.chan d) := by
      have : ∀ d ∈ cs, w (f s c).params d ((f s c).chan d) = w s.params d (s.chan d) := fun d hd => by
        have hdc : d ≠ c := fun h => hnc (h ▸ hd)
        rw [hg, if_neg hdc, (hw s c).params]
      simp only [List.flatMap_def, List.map_congr_left this]
    refine ⟨?_, fun e => ?_⟩
    · rw [List.foldl_cons, List.flatMap_cons, ← hsame]
      exact (hw s c).trans hw'
    · rw [List.foldl_cons, hg', hg, (hw s c).params]
      by_cases hec : e = c
      · subst hec
        simp [hnc]
      · simp [hec]

theorem allChannels_nodup : allChannels.Nodup := by decide

@[simp] theorem mem_allChannels (c : Chan) : c ∈ allChannels := by
  revert c
  decide

@[simp] theorem mem_allOffsets (i : Offset) : i ∈ allOffsets := by
  revert i
  decide

/-- `foldl_channelwise` over all nine channels. -/
theorem foldl_allChannels (f : State → Chan → State) (g : Params → Channel → Channel)
    (w : Params → Chan → Channel → List (Byte × Byte))
    (hw : ∀ s c, Wrote s (f s c) (w s.params c (s.chan c)))
    (hg : ∀ s c e, (f s c).chan e = if e = c then g s.params (s.chan c) else s.chan e) (s : State) :
    Wrote s (allChannels.foldl f s) (allChannels.flatMap fun c => w s.params c (s.chan c)) ∧
      ∀ e, (allChannels.foldl f s).chan e = g s.params (s.chan e) := by
  simpa using foldl_channelwise f g w hw hg allChannels allChannels_nodup s

end Sys2Proof.Machine
end

