-- ==== Sys2Proof/Laws/Params.lean ====
section
/-! SUPPORT. What an admissible parameter record gives (00_scope.md rule R6), item by item. -/

namespace Sys2Proof.Machine

@[simp] theorem ChipReg.mem_all (reg : ChipReg) : reg ∈ ChipReg.all := by
  have hc : ∀ c : Chan, c ∈ allChannels := by decide
  have hi : ∀ i : Offset, i ∈ allOffsets := by decide
  cases reg <;> simp [ChipReg.all, hc, hi]

/-- Rule R6, all items at once. -/
theorem admissible_iff (P : Params) : P.admissible = true ↔
    1 ≤ P.octaveSpan ∧ P.baseFnum + P.octaveSpan ≤ 1024 ∧
    (∀ f ∈ P.noteFnums.toList, P.baseFnum ≤ f.toNat ∧ f.toNat < P.baseFnum + P.octaveSpan) ∧
    (ChipReg.all.map P.addr).Nodup ∧ (∀ c, P.volAddr c = P.insAddr P.carrierIdx c) ∧ P.cmdIds.Nodup ∧ 0 ∉ P.cmdIds ∧
    1 ≤ P.volSlideMid ∧ P.volSlideMid ≤ 255 := by
  have hc : ∀ c : Chan, c ∈ allChannels := by decide
  simp only [Params.admissible, Bool.and_eq_true, decide_eq_true_eq, List.all_eq_true, and_assoc, hc, forall_const]

variable {P : Params}

theorem span_pos (h : P.admissible = true) : 1 ≤ P.octaveSpan := ((admissible_iff P).mp h).1

theorem base_span_le (h : P.admissible = true) : P.baseFnum + P.octaveSpan ≤ 1024 := ((admissible_iff P).mp h).2.1

theorem noteFnum_bounds (h : P.admissible = true) (n : Fin 12) :
    P.baseFnum ≤ (P.noteFnum n).toNat ∧ (P.noteFnum n).toNat < P.baseFnum + P.octaveSpan :=
  ((admissible_iff P).mp h).2.2.1 _ (by simp [Params.noteFnum])

/-- The 117 addresses are pairwise distinct (rule R6(c)). -/
theorem addr_injective (h : P.admissible = true) {x y : ChipReg} (hxy : P.addr x = P.addr y) : x = y :=
  List.inj_on_of_nodup_map ((admissible_iff P).mp h).2.2.2.1 (ChipReg.mem_all x) (ChipReg.mem_all y) hxy

/-- `A_VOL` is the carrier level's `A_INS` (rule R6(d)). -/
theorem volAddr_eq (h : P.admissible = true) (c : Chan) : P.volAddr c = P.insAddr P.carrierIdx c :=
  ((admissible_iff P).mp h).2.2.2.2.1 c

theorem cmdIds_nodup (h : P.admissible = true) : P.cmdIds.Nodup := ((admissible_iff P).mp h).2.2.2.2.2.1

theorem zero_not_cmdId (h : P.admissible = true) : 0 ∉ P.cmdIds := ((admissible_iff P).mp h).2.2.2.2.2.2.1

theorem mid_bounds (h : P.admissible = true) : 1 ≤ P.volSlideMid ∧ P.volSlideMid ≤ 255 :=
  ((admissible_iff P).mp h).2.2.2.2.2.2.2

end Sys2Proof.Machine
end

