-- ==== Sys2Proof/Laws/Commands.lean ====
section
/-! SUPPORT. What the operand checks answer, what the composed procedures of EVENT and TICK write and leave, and the one inversion lemma
of `exec`: a command either raises one fault, or makes a list of writes and answers one response. -/

namespace Sys2Proof.Machine

theorem channelOf_eq {ch : BitVec 4} {c : Chan} (h : ch.toNat = c.val) : channelOf ch = some c := by
  simp [channelOf, h]

theorem channelOf_none {ch : BitVec 4} (h : 9 ≤ ch.toNat) : channelOf ch = none := by
  simp [channelOf, Nat.not_lt.mpr h]

theorem channelOf_some {ch : BitVec 4} {c : Chan} (h : channelOf ch = some c) : ch.toNat = c.val := by
  unfold channelOf at h
  split at h
  · cases h
    rfl
  · cases h

theorem withChannel_eq {ch : BitVec 4} {c : Chan} (h : ch.toNat = c.val) (s : State)
    (k : Chan → Host.Outcome State Fault Refusal) : withChannel ch s k = k c := by
  simp [withChannel, channelOf_eq h]

theorem withChannel_absent {ch : BitVec 4} (h : 9 ≤ ch.toNat) (s : State) (k : Chan → Host.Outcome State Fault Refusal) :
    withChannel ch s k = raise .channel s := by
  simp [withChannel, channelOf_none h]

theorem noteIndex_eq {note : BitVec 4} {n : Fin 12} (h : note.toNat = n.val + 1) : noteIndex note = some n := by
  have h' : 1 ≤ note.toNat ∧ note.toNat ≤ 12 := by omega
  simp only [noteIndex, dif_pos h', Option.some.injEq, Fin.ext_iff]
  omega

theorem noteIndex_none {note : BitVec 4} (h : note.toNat = 0 ∨ 13 ≤ note.toNat) : noteIndex note = none := by
  have h' : ¬(1 ≤ note.toNat ∧ note.toNat ≤ 12) := by omega
  simp only [noteIndex, dif_neg h']

theorem noteIndex_some {note : BitVec 4} {n : Fin 12} (h : noteIndex note = some n) : note.toNat = n.val + 1 := by
  unfold noteIndex at h
  split at h
  · cases h
    show note.toNat = note.toNat - 1 + 1
    omega
  · cases h

theorem slotOf_eq {ins : BitVec 5} {k : Slot} (h : ins.toNat = k.val) : slotOf ins = some k := by
  simp [slotOf, h]

theorem slotOfNumber_zero : slotOfNumber 0 = none := by decide

theorem slotOfNumber_eq {ins : BitVec 5} {k : Slot} (h : ins.toNat = k.val + 1) : slotOfNumber ins = some k := by
  have h' : ins.toNat ≠ 0 := by omega
  simp only [slotOfNumber, if_neg h', Option.some.injEq, Fin.ext_iff]
  omega

theorem note_ne_zero {note : BitVec 4} (h : 1 ≤ note.toNat) : note ≠ 0 := by
  rintro rfl
  simp at h

/-- `setNote` writes the high register last and touches the frequency shadows of its channel alone. -/
theorem setNote_wrote (c : Chan) (oct : BitVec 3) (note : BitVec 4) (s : State) :
    Wrote s (setNote c oct note s) (match noteIndex note with
      | some n => [(s.params.floAddr c, fnumLow (s.params.noteFnum n)), (s.params.fhiAddr c, 0x20 ||| pitchHigh oct (s.params.noteFnum n))]
      | none => [(s.params.fhiAddr c, fhiKeyedOff (s.chan c).fhi)]) := by
  unfold setNote
  cases noteIndex note
  · exact keyOff_wrote ..
  · exact noteOn_wrote ..

theorem setNote_chan (c : Chan) (oct : BitVec 3) (note : BitVec 4) (s : State) (e : Chan) :
    (setNote c oct note s).chan e = if e = c then (match noteIndex note with
      | some n => { s.chan c with flo := fnumLow (s.params.noteFnum n), fhi := 0x20 ||| pitchHigh oct (s.params.noteFnum n) }
      | none => { s.chan c with fhi := fhiKeyedOff (s.chan c).fhi }) else s.chan e := by
  unfold setNote
  cases noteIndex note
  · exact keyOff_chan ..
  · exact noteOn_chan ..

/-- The state after EVENT's key-off and instrument load, before its note (rule R115). -/
def loadedState (c : Chan) (ins : BitVec 5) (s : State) : State :=
  match slotOfNumber ins with
  | some idx => loadIns idx c (keyOff c s)
  | none => keyOff c s

/-- The writes of EVENT's instrument load. -/
def loadWrites (c : Chan) (ins : BitVec 5) (s : State) : List (Byte × Byte) :=
  match slotOfNumber ins with
  | some idx => insWrites s idx c
  | none => []

/-- The volume shadow after EVENT's instrument load. -/
def loadedVol (c : Chan) (ins : BitVec 5) (s : State) : Byte :=
  match slotOfNumber ins with
  | some idx => s.insRead idx s.params.carrierIdx
  | none => (s.chan c).vol

theorem triggerNote_eq (c : Chan) (oct : BitVec 3) (note : BitVec 4) (ins : BitVec 5) (s : State) :
    triggerNote c oct note ins s = setNote c oct note (loadedState c ins s) := rfl

theorem loadedState_wrote (c : Chan) (ins : BitVec 5) (s : State) :
    Wrote s (loadedState c ins s) ((s.params.fhiAddr c, fhiKeyedOff (s.chan c).fhi) :: loadWrites c ins s) := by
  unfold loadedState loadWrites
  split
  · next idx _ =>
    exact (keyOff_wrote c s).trans (loadIns_wrote idx c (keyOff c s))
  · exact keyOff_wrote c s

theorem loadedState_chan (c : Chan) (ins : BitVec 5) (s : State) (e : Chan) :
    (loadedState c ins s).chan e =
      if e = c then { s.chan c with fhi := fhiKeyedOff (s.chan c).fhi, vol := loadedVol c ins s } else s.chan e := by
  unfold loadedState loadedVol
  split
  · next idx _ =>
    rw [loadIns_chan]
    simp only [keyOff_chan, if_true]
    split
    · rfl
    · rfl
  · exact keyOff_chan c s e

theorem triggerNote_wrote (c : Chan) (oct : BitVec 3) (note : BitVec 4) (ins : BitVec 5) (s : State) :
    Wrote s (triggerNote c oct note ins s) ((s.params.fhiAddr c, fhiKeyedOff (s.chan c).fhi) :: loadWrites c ins s ++
      (match noteIndex note with
      | some n => [(s.params.floAddr c, fnumLow (s.params.noteFnum n)), (s.params.fhiAddr c, 0x20 ||| pitchHigh oct (s.params.noteFnum n))]
      | none => [(s.params.fhiAddr c, fhiKeyedOff (fhiKeyedOff (s.chan c).fhi))])) := by
  have h1 := loadedState_wrote c ins s
  have h2 := setNote_wrote c oct note (loadedState c ins s)
  rw [h1.params, loadedState_chan, if_pos rfl] at h2
  exact h1.trans h2

theorem triggerNote_chan (c : Chan) (oct : BitVec 3) (note : BitVec 4) (ins : BitVec 5) (s : State) (e : Chan) :
    (triggerNote c oct note ins s).chan e = if e = c then (match noteIndex note with
      | some n => { s.chan c with
          flo := fnumLow (s.params.noteFnum n), fhi := 0x20 ||| pitchHigh oct (s.params.noteFnum n), vol := loadedVol c ins s }
      | none => { s.chan c with fhi := fhiKeyedOff (fhiKeyedOff (s.chan c).fhi), vol := loadedVol c ins s }) else s.chan e := by
  rw [triggerNote_eq, setNote_chan, loadedState_chan, loadedState_chan, (loadedState_wrote c ins s).params, if_pos rfl]
  split
  · cases noteIndex note <;> rfl
  · rfl

/-- Portamento on one channel, by its registers (rule R131). -/
theorem portamento_wrote (c : Chan) (s : State) :
    Wrote s (portamento c s) (if (s.chan c).porta ≠ 0 then freqWrites s.params c ((s.chan c).tickPorta s.params) else []) ∧
      ∀ e, (portamento c s).chan e = if e = c then (s.chan c).tickPorta s.params else s.chan e := by
  by_cases h : (s.chan c).porta = 0
  · simp only [portamento, Channel.portaArmed, Channel.tickPorta, h, ne_eq, not_true_eq_false, decide_false, if_false]
    exact ⟨Wrote.refl s, fun e => by split <;> simp_all⟩
  · simp only [portamento, Channel.portaArmed, Channel.tickPorta, h, ne_eq, not_false_eq_true, decide_true, if_true]
    exact ⟨setLin_wrote .., fun e => setLin_chan ..⟩

/-- The two arrival tests of rule R132 are one clamp. -/
theorem slideTo_up {cur tgt step : Int} (h : cur < tgt) : slideTo cur tgt step = if cur + step ≥ tgt then tgt else cur + step := by
  unfold slideTo
  rw [if_pos h]
  split <;> omega

theorem slideTo_down {cur tgt step : Int} (h : ¬cur < tgt) : slideTo cur tgt step = if cur - step ≤ tgt then tgt else cur - step := by
  unfold slideTo
  rw [if_neg h]
  split <;> omega

/-- `setLin` after the flag was cleared is `setLin` with the flag cleared. -/
theorem setLin_disarm (c : Chan) (lin : Int) (s : State) :
    Wrote s (setLin c lin (disarmTone c s)) (freqWrites s.params c ((s.chan c).withLinear s.params lin)) ∧
      ∀ e, (setLin c lin (disarmTone c s)).chan e =
        if e = c then { (s.chan c).withLinear s.params lin with tsact := false } else s.chan e := by
  have h := (setChan_wrote s c (s.chan c).disarmTone).trans (setLin_wrote c lin (disarmTone c s))
  have hd : (disarmTone c s).chan c = (s.chan c).disarmTone := State.setChan_chan_self ..
  rw [hd] at h
  refine ⟨h, fun e => ?_⟩
  rw [setLin_chan, hd]
  split
  · rfl
  · next hne => exact State.setChan_chan_ne s _ hne

/-- Tone slide on one channel, by its registers (rule R132). -/
theorem toneSlide_wrote (c : Chan) (s : State) :
    Wrote s (toneSlide c s) (if (s.chan c).tsact ∧ (s.chan c).linear s.params ≠ (s.chan c).tstgt.toInt then
        freqWrites s.params c ((s.chan c).tickTone s.params) else []) ∧
      ∀ e, (toneSlide c s).chan e = if e = c then (s.chan c).tickTone s.params else s.chan e := by
  by_cases ha : (s.chan c).tsact = true
  swap
  · simp only [toneSlide, Channel.toneArmed, Channel.tickTone, ha, Bool.false_eq_true, if_false, false_and]
    exact ⟨Wrote.refl s, fun e => by split <;> simp_all⟩
  by_cases heq : (s.chan c).linear s.params = (s.chan c).tstgt.toInt
  · simp only [toneSlide, Channel.toneArmed, Channel.tickTone, ha, if_true, getLin, heq, ne_eq, not_true_eq_false, and_false, if_false]
    exact ⟨setChan_wrote .., fun e => State.setChan_chan ..⟩
  have key : ∀ new : Int, new = slideTo ((s.chan c).linear s.params) (s.chan c).tstgt.toInt (s.chan c).tsstep.toNat →
      (new = (s.chan c).tstgt.toInt → toneSlide c s = setLin c new (disarmTone c s)) →
      (new ≠ (s.chan c).tstgt.toInt → toneSlide c s = setLin c new s) →
      Wrote s (toneSlide c s) (freqWrites s.params c ((s.chan c).tickTone s.params)) ∧
      ∀ e, (toneSlide c s).chan e = if e = c then (s.chan c).tickTone s.params else s.chan e := by
    intro new hnew harr hgo
    have ht : (s.chan c).tickTone s.params =
        { (s.chan c).withLinear s.params new with tsact := decide (new ≠ (s.chan c).tstgt.toInt) } := by
      simp only [Channel.tickTone, ha, if_true, heq, if_false, ← hnew]
    rw [ht]
    by_cases harrived : new = (s.chan c).tstgt.toInt
    · rw [harr harrived]
      have hd : decide (new ≠ (s.chan c).tstgt.toInt) = false := by simp [harrived]
      rw [hd]
      exact setLin_disarm c new s
    · rw [hgo harrived]
      have hd : { (s.chan c).withLinear s.params new with tsact := decide (new ≠ (s.chan c).tstgt.toInt) }
          = (s.chan c).withLinear s.params new := by
        simp only [harrived, ne_eq, not_false_eq_true, decide_true, Channel.withLinear, ha]
      rw [hd]
      exact ⟨setLin_wrote .., fun e => setLin_chan ..⟩
  simp only [ha, heq, ne_eq, not_false_eq_true, and_self, if_true]
  by_cases hlt : (s.chan c).linear s.params < (s.chan c).tstgt.toInt
  · have hts : toneSlide c s = if (s.chan c).linear s.params + (s.chan c).tsstep.toNat ≥ (s.chan c).tstgt.toInt
        then setLin c (s.chan c).tstgt.toInt (disarmTone c s)
        else setLin c ((s.chan c).linear s.params + (s.chan c).tsstep.toNat) s := by
      simp only [toneSlide, Channel.toneArmed, ha, if_true, getLin, heq, if_false, hlt]
      rfl
    by_cases hge : (s.chan c).linear s.params + (s.chan c).tsstep.toNat ≥ (s.chan c).tstgt.toInt
    · exact key _ (by rw [slideTo_up hlt, if_pos hge]) (fun _ => by rw [hts, if_pos hge]) (fun h => absurd rfl h)
    · exact key _ (by rw [slideTo_up hlt, if_neg hge]) (fun h => absurd h (by omega)) (fun _ => by rw [hts, if_neg hge])
  · have hts : toneSlide c s = if (s.chan c).linear s.params - (s.chan c).tsstep.toNat ≤ (s.chan c).tstgt.toInt
        then setLin c (s.chan c).tstgt.toInt (disarmTone c s)
        else setLin c ((s.chan c).linear s.params - (s.chan c).tsstep.toNat) s := by
      simp only [toneSlide, Channel.toneArmed, ha, if_true, getLin, heq, if_false, hlt]
      rfl
    by_cases hle : (s.chan c).linear s.params - (s.chan c).tsstep.toNat ≤ (s.chan c).tstgt.toInt
    · exact key _ (by rw [slideTo_down hlt, if_pos hle]) (fun _ => by rw [hts, if_pos hle]) (fun h => absurd rfl h)
    · exact key _ (by rw [slideTo_down hlt, if_neg hle]) (fun h => absurd h (by omega)) (fun _ => by rw [hts, if_neg hle])

/-- Volume slide on one channel, by its registers (rule R133). -/
theorem volumeSlide_wrote (c : Chan) (s : State) :
    Wrote s (volumeSlide c s) (if (s.chan c).vsl ≠ 0 then [(s.params.volAddr c, (s.chan c).tickVol.vol)] else []) ∧
      ∀ e, (volumeSlide c s).chan e = if e = c then (s.chan c).tickVol else s.chan e := by
  by_cases h : (s.chan c).vsl = 0
  · simp only [volumeSlide, Channel.volArmed, Channel.tickVol, h, ne_eq, not_true_eq_false, decide_false, if_false]
    exact ⟨Wrote.refl s, fun e => by split <;> simp_all⟩
  · simp only [volumeSlide, Channel.volArmed, Channel.tickVol, h, ne_eq, not_false_eq_true, decide_true, if_true]
    exact ⟨setVol_wrote .., fun e => setVol_chan ..⟩

theorem tickPorta_tsact (P : Params) (r : Channel) : (r.tickPorta P).tsact = r.tsact ∧ (r.tickPorta P).tstgt = r.tstgt ∧
    (r.tickPorta P).vsl = r.vsl := by
  unfold Channel.tickPorta
  split <;> exact ⟨rfl, rfl, rfl⟩

theorem tickTone_vsl (P : Params) (r : Channel) : (r.tickTone P).vsl = r.vsl := by
  unfold Channel.tickTone
  split
  · split <;> rfl
  · rfl

/-- One channel's share of a TICK (rules R130 to R134). -/
theorem tickChannel_wrote (s : State) (c : Chan) :
    Wrote s (tickChannel s c) (tickWrites s.params c (s.chan c)) ∧
      ∀ e, (tickChannel s c).chan e = if e = c then (s.chan c).tick s.params else s.chan e := by
  obtain ⟨w1, c1⟩ := portamento_wrote c s
  obtain ⟨w2, c2⟩ := toneSlide_wrote c (portamento c s)
  obtain ⟨w3, c3⟩ := volumeSlide_wrote c (toneSlide c (portamento c s))
  obtain ⟨ha, ht, hv⟩ := tickPorta_tsact s.params (s.chan c)
  have hp2 : (toneSlide c (portamento c s)).params = s.params := w2.params.trans w1.params
  have hc1 : (portamento c s).chan c = (s.chan c).tickPorta s.params := by rw [c1, if_pos rfl]
  have hc2 : (toneSlide c (portamento c s)).chan c = ((s.chan c).tickPorta s.params).tickTone s.params := by
    rw [c2, if_pos rfl, w1.params, hc1]
  rw [w1.params, hc1, ha, ht] at w2
  rw [hp2, hc2, tickTone_vsl, hv] at w3
  refine ⟨(w1.trans w2).trans w3, fun e => ?_⟩
  simp only [tickChannel, c3, hc2]
  split
  · rfl
  · next h => rw [c2, if_neg h, c1, if_neg h]

/-- A TICK, by channel (rules R130, R134). -/
theorem tick_wrote (s : State) :
    Wrote s (allChannels.foldl tickChannel s) (allChannels.flatMap fun c => tickWrites s.params c (s.chan c)) ∧
      ∀ e, (allChannels.foldl tickChannel s).chan e = (s.chan e).tick s.params :=
  foldl_allChannels tickChannel (fun P r => r.tick P) tickWrites (fun s c => (tickChannel_wrote s c).1)
    (fun s c => (tickChannel_wrote s c).2) s

/-- SILENCE, by channel (rule R98). -/
theorem silence_wrote (s : State) :
    Wrote s (allChannels.foldl (fun t c => keyOff c t) s)
        (allChannels.flatMap fun c => [(s.params.fhiAddr c, fhiKeyedOff (s.chan c).fhi)]) ∧
      ∀ e, (allChannels.foldl (fun t c => keyOff c t) s).chan e = { s.chan e with fhi := fhiKeyedOff (s.chan e).fhi } :=
  foldl_allChannels (fun t c => keyOff c t) (fun _ r => { r with fhi := fhiKeyedOff r.fhi })
    (fun P c r => [(P.fhiAddr c, fhiKeyedOff r.fhi)]) (fun s c => keyOff_wrote c s) (fun s c => keyOff_chan c s) s

/-- FXCLR, by channel (rule R110). -/
theorem fxclr_wrote (s : State) :
    Wrote s (allChannels.foldl (fun t c => t.setChan c (t.chan c).disarmAll) s) [] ∧
      ∀ e, (allChannels.foldl (fun t c => t.setChan c (t.chan c).disarmAll) s).chan e = (s.chan e).disarmAll := by
  have h := foldl_allChannels (fun t c => t.setChan c (t.chan c).disarmAll) (fun _ r => r.disarmAll) (fun _ _ _ => [])
    (fun s c => setChan_wrote s c _) (fun s c e => State.setChan_chan ..) s
  have hn : (allChannels.flatMap fun _ => ([] : List (Byte × Byte))) = [] := rfl
  rwa [hn] at h

end Sys2Proof.Machine
end

