-- ==== Sys2Proof/Laws/Encoding.lean ====
section
/-! SUPPORT. The fields of a word as arithmetic, and each operation code's line of the decoder, so that no proof unfolds the decoder's
match (30_encoding.md rules R61 to R70). -/

namespace Sys2Proof

theorem field_toNat (w : Word) (lo len : Nat) : (field w lo len).toNat = w.toNat / 2 ^ lo % 2 ^ len := by
  rw [field, BitVec.extractLsb'_toNat, Nat.shiftRight_eq_div_pow]

/-- A field of a word is a given value exactly when the arithmetic says so. -/
theorem field_eq_iff (w : Word) (lo len : Nat) (x : BitVec len) : field w lo len = x ↔ w.toNat / 2 ^ lo % 2 ^ len = x.toNat := by
  rw [← field_toNat]
  exact ⟨fun h => h ▸ rfl, BitVec.eq_of_toNat_eq⟩

/-- Every encoding fits 32 bits. -/
theorem encodeNat_lt (i : Instr) : encodeNat i < 2 ^ 32 := by
  cases i <;> simp only [encodeNat] <;> omega

theorem encode_toNat (i : Instr) : (encode i).toNat = encodeNat i := by
  rw [encode, BitVec.toNat_ofNat, Nat.mod_eq_of_lt (encodeNat_lt i)]

theorem ifReservedZero_ok {w : Word} {lo len : Nat} (h : w.toNat / 2 ^ lo % 2 ^ len = 0) (i : Instr) :
    ifReservedZero w lo len i = .ok i := by
  have h0 : field w lo len = 0 := (field_eq_iff w lo len 0).mpr (by simpa using h)
  simp [ifReservedZero, h0]

theorem ifReservedZero_error {w : Word} {lo len : Nat} (h : w.toNat / 2 ^ lo % 2 ^ len ≠ 0) (i : Instr) :
    ifReservedZero w lo len i = .error .encoding := by
  have h0 : field w lo len ≠ 0 := fun hf => h (by simpa using (field_eq_iff w lo len 0).mp hf)
  rw [ifReservedZero, if_neg h0]

/-- The decoder reads the operation code from bits 31:28. -/
theorem decode_eq (w : Word) : decode w = decodeOp w (w.toNat / 2 ^ 28) := by
  have := w.isLt
  rw [decode, field_toNat, Nat.mod_eq_of_lt (by omega)]

/-- An operation code beyond the opcode map. -/
theorem decodeOp_unassigned (w : Word) {op : Nat} (h : op = 0 ∨ 11 ≤ op) : decodeOp w op = .error .illegal := by
  rcases h with rfl | h
  · rfl
  · unfold decodeOp
    split <;> first | omega | rfl

end Sys2Proof
end

