-- ==== Sys2Proof/Laws/PerInstr.lean ====
section
/-! SUPPORT. The family `FixedBits`: the word of every command carries the fixed bits of its row of spec/opcode_table.json. -/

namespace Sys2Proof.Laws.FixedBits

set_option Elab.async false

/-- The `fixed` column of spec/opcode_table.json: highest bit, lowest bit, value. -/
def fixedOf : Instr → List (Nat × Nat × Nat)
  | .setnote _ _ _ => [(23, 7, 0), (31, 28, 1)]
  | .setlin _ _ => [(23, 16, 0), (31, 28, 2)]
  | .getlin _ => [(23, 0, 0), (31, 28, 3)]
  | .setvol _ _ => [(23, 8, 0), (31, 28, 4)]
  | .getvol _ => [(23, 0, 0), (31, 28, 5)]
  | .ldins _ _ => [(23, 5, 0), (31, 28, 6)]
  | .silence => [(31, 0, 1879048192)]
  | .fxclr => [(31, 0, 2147483648)]
  | .event _ _ _ _ _ _ => [(31, 28, 9)]
  | .tick => [(31, 0, 2684354560)]

/-- The command's word has every fixed field of its row at the row's value. -/
def Statement (i : Instr) : Prop :=
  ∀ f ∈ fixedOf i, (encode i).toNat / 2 ^ f.2.1 % 2 ^ (f.1 - f.2.1 + 1) = f.2.2

theorem setnote (ch : BitVec 4) (oct : BitVec 3) (note : BitVec 4) : Statement (.setnote ch oct note) := by
  simp [Statement, fixedOf, encode_toNat, encodeNat]
  omega

theorem setlin (ch : BitVec 4) (lin : BitVec 16) : Statement (.setlin ch lin) := by
  simp [Statement, fixedOf, encode_toNat, encodeNat]
  omega

theorem getlin (ch : BitVec 4) : Statement (.getlin ch) := by
  simp [Statement, fixedOf, encode_toNat, encodeNat]
  omega

theorem setvol (ch : BitVec 4) (level : BitVec 8) : Statement (.setvol ch level) := by
  simp [Statement, fixedOf, encode_toNat, encodeNat]
  omega

theorem getvol (ch : BitVec 4) : Statement (.getvol ch) := by
  simp [Statement, fixedOf, encode_toNat, encodeNat]
  omega

theorem ldins (ins : BitVec 5) (ch : BitVec 4) : Statement (.ldins ins ch) := by
  simp [Statement, fixedOf, encode_toNat, encodeNat]
  omega

theorem silence : Statement .silence := by
  simp [Statement, fixedOf, encode_toNat, encodeNat]

theorem fxclr : Statement .fxclr := by
  simp [Statement, fixedOf, encode_toNat, encodeNat]

theorem event (ch : BitVec 4) (oct : BitVec 3) (note cmd : BitVec 4) (param : BitVec 8) (ins : BitVec 5) :
    Statement (.event ch oct note cmd param ins) := by
  simp [Statement, fixedOf, encode_toNat, encodeNat]
  omega

theorem tick : Statement .tick := by
  simp [Statement, fixedOf, encode_toNat, encodeNat]

end Sys2Proof.Laws.FixedBits
end

