-- ==== Sys2Proof/Laws/Step.lean ====
section
/-! SUPPORT. What one step can do, said once: the turn at the ports by the host's next input, and the end of every command (a fault that
changes nothing, or some writes and one response). -/

namespace Sys2Proof.Machine

theorem step_idle {s : State} (hr : s.rst = false) (hp : s.pending = []) : step s = .next s := by
  simp [step, portTurn, hp, State.held, hr]

theorem step_idle_reset {s : State} (hr : s.rst = true) (hp : s.pending = []) : step s = .next s.applyReset := by
  simp [step, portTurn, hp, State.held, hr]

theorem step_command {s : State} {w : Word} {rest : List HostInput} (hr : s.rst = false) (hp : s.pending = .command w :: rest) :
    step s = match decode w with
      | .ok i => exec i { s with pending := rest }
      | .error e => raise (errOf e) { s with pending := rest } := by
  cases hd : decode w <;> simp [step, portTurn, hp, State.cmdReady, hr, hd]

theorem step_command_reset {s : State} {w : Word} {rest : List HostInput} (hr : s.rst = true)
    (hp : s.pending = .command w :: rest) : step s = .next s.applyReset := by
  simp [step, portTurn, hp, State.cmdReady, State.held, hr]

theorem step_bankByte {s : State} {k : Slot} {i : Offset} {b : Byte} {rest : List HostInput}
    (hp : s.pending = .bankByte k i b :: rest) :
    step s = .next { s.held.loadBankByte k i b with pending := rest } := by
  simp [step, portTurn, hp]

theorem step_rst_high {s : State} {rest : List HostInput} (hp : s.pending = .rst true :: rest) :
    step s = .next { s.applyReset with rst := true, pending := rest } := by
  cases h : s.rst <;> simp [step, portTurn, hp, State.held, h, State.driveRst, State.applyReset]

theorem step_rst_low {s : State} {rest : List HostInput} (hp : s.pending = .rst false :: rest) :
    step s = .next { s.held with rst := false, pending := rest } := by
  simp [step, portTurn, hp, State.held, State.driveRst]

/-- Every step is one of these seven, by the reset input and the host's next input. -/
theorem step_cases (s : State) :
    (s.rst = false ∧ s.pending = [] ∧ step s = .next s) ∨
    (s.rst = true ∧ (s.pending = [] ∨ ∃ w rest, s.pending = .command w :: rest) ∧ step s = .next s.applyReset) ∨
    (∃ w rest i, s.rst = false ∧ s.pending = .command w :: rest ∧ decode w = .ok i ∧ step s = exec i { s with pending := rest }) ∨
    (∃ w rest e, s.rst = false ∧ s.pending = .command w :: rest ∧ decode w = .error e ∧
      step s = raise (errOf e) { s with pending := rest }) ∨
    (∃ k i b rest, s.pending = .bankByte k i b :: rest ∧ step s = .next { s.held.loadBankByte k i b with pending := rest }) ∨
    (∃ rest, s.pending = .rst true :: rest ∧ step s = .next { s.applyReset with rst := true, pending := rest }) ∨
    (∃ rest, s.pending = .rst false :: rest ∧ step s = .next { s.held with rst := false, pending := rest }) := by
  have hr := Bool.eq_false_or_eq_true s.rst
  have hq : s.pending = [] ∨ ∃ h rest, s.pending = h :: rest := by cases s.pending <;> simp
  rcases hq with hp | ⟨h, rest, hp⟩
  · rcases hr with hr | hr
    · exact .inr (.inl ⟨hr, .inl hp, step_idle_reset hr hp⟩)
    · exact .inl ⟨hr, hp, step_idle hr hp⟩
  · cases h with
    | command w =>
      rcases hr with hr | hr
      · exact .inr (.inl ⟨hr, .inr ⟨w, rest, hp⟩, step_command_reset hr hp⟩)
      · have h := step_command hr hp
        rcases hd : decode w with e | i
        · rw [hd] at h
          exact .inr (.inr (.inr (.inl ⟨w, rest, e, hr, hp, hd, h⟩)))
        · rw [hd] at h
          exact .inr (.inr (.inl ⟨w, rest, i, hr, hp, hd, h⟩))
    | rst level =>
      cases level
      · exact .inr (.inr (.inr (.inr (.inr (.inr ⟨rest, hp, step_rst_low hp⟩)))))
      · exact .inr (.inr (.inr (.inr (.inr (.inl ⟨rest, hp, step_rst_high hp⟩)))))
    | bankByte k i b => exact .inr (.inr (.inr (.inr (.inl ⟨k, i, b, rest, hp, step_bankByte hp⟩))))

/-- How a command ends: a fault that changes nothing but the responses, or writes `ws` and a response without a fault. -/
def Ends (s : State) (o : Host.Outcome State Fault Refusal) : Prop :=
  (∃ e, e ≠ .none ∧ o = .next (s.respond (Response.fault e))) ∨
    ∃ t ws r, r.err = .none ∧ Wrote s t ws ∧ o = .next (t.respond r)

theorem raise_ends {e : Err} (h : e ≠ .none) (s : State) : Ends s (raise e s) := .inl ⟨e, h, rfl⟩

theorem finish_ends {s t : State} {ws : List (Byte × Byte)} {r : Response} (h : Wrote s t ws) (hr : r.err = .none) :
    Ends s (finish r t) := .inr ⟨t, ws, r, hr, h, rfl⟩

theorem withChannel_ends {ch : BitVec 4} {s : State} {k : Chan → Host.Outcome State Fault Refusal}
    (h : ∀ c, channelOf ch = some c → Ends s (k c)) : Ends s (withChannel ch s k) := by
  unfold withChannel
  split
  · next c hc => exact h c hc
  · exact raise_ends (by decide) s

theorem dispatchCommand_ends (c : Chan) (cmd : BitVec 4) (param : Byte) {s u : State} {ws : List (Byte × Byte)}
    (h : Wrote s u ws) : Ends s (dispatchCommand c cmd param u) := by
  unfold dispatchCommand
  repeat' split
  all_goals first
    | exact finish_ends h rfl
    | exact finish_ends (h.trans (setChan_wrote u c _)) rfl
    | exact finish_ends (r := .ok) (h.trans (setVol_wrote c param.toNat u)) rfl

/-- Every command ends in one of the two ways. -/
theorem exec_ends (i : Instr) (s : State) : Ends s (exec i s) := by
  cases i with
  | setnote ch oct note =>
    refine withChannel_ends fun c _ => ?_
    show Ends s (if note = 0 then raise .operand s else finish .ok (setNote c oct note s))
    split
    · exact raise_ends (by decide) s
    · exact finish_ends (setNote_wrote c oct note s) rfl
  | setlin ch lin => exact withChannel_ends fun c _ => finish_ends (setLin_wrote c lin.toInt s) rfl
  | getlin ch => exact withChannel_ends fun c _ => finish_ends (Wrote.refl s) rfl
  | setvol ch level => exact withChannel_ends fun c _ => finish_ends (setVol_wrote c level.toNat s) rfl
  | getvol ch => exact withChannel_ends fun c _ => finish_ends (Wrote.refl s) rfl
  | ldins ins ch =>
    refine withChannel_ends fun c _ => ?_
    cases h : slotOf ins with
    | some idx => simpa [h] using finish_ends (loadIns_wrote idx c s) rfl
    | none => simpa [h] using raise_ends (e := .operand) (by decide) s
  | silence => exact finish_ends (silence_wrote s).1 rfl
  | fxclr => exact finish_ends (fxclr_wrote s).1 rfl
  | event ch oct note cmd param ins =>
    refine withChannel_ends fun c _ => ?_
    by_cases hs : note ≠ 0 ∧ cmd = s.params.cmdToneSlide
    · simp only [hs, and_self, if_true, ne_eq, not_false_eq_true]
      split
      · exact finish_ends (setChan_wrote s c _) rfl
      · exact raise_ends (by decide) s
    · simp only [hs, if_false]
      split
      · exact dispatchCommand_ends c cmd param (triggerNote_wrote c oct note ins s)
      · exact dispatchCommand_ends c cmd param (Wrote.refl s)
  | tick => exact finish_ends (tick_wrote s).1 rfl

end Sys2Proof.Machine
end

