-- ==== Sys2Proof/WellFormed.lean ====
section
/-! DEFINITION. The operand ranges the spec gives each command, as one check on the syntax (30_encoding.md rules R64 to R70 and R72
items 3 and 4). An ill-formed command still decodes: it faults when it is executed (rules R153, R155). The fault `E_NOTE` depends on a
parameter (rule R156), so it is no part of this check. -/

namespace Sys2Proof

/-- `ch` names one of the channels 0..8 (rule R23). -/
def Instr.channelOk (ch : BitVec 4) : Bool := decide (ch.toNat ≤ 8)

/-- Every operand names something: the channel is 0..8, SETNOTE's note is 1..15, LDINS's slot is 0..30. -/
def Instr.wellFormed : Instr → Bool
  | .setnote ch _ note => channelOk ch && decide (note ≠ 0)
  | .setlin ch _ => channelOk ch
  | .getlin ch => channelOk ch
  | .setvol ch _ => channelOk ch
  | .getvol ch => channelOk ch
  | .ldins ins ch => channelOk ch && decide (ins.toNat ≤ 30)
  | .silence => true
  | .fxclr => true
  | .event ch _ _ _ _ _ => channelOk ch
  | .tick => true

end Sys2Proof
end

