-- ==== Sys2Proof/Tests/Slice0.lean ====
section
/-! SUPPORT. Tests: ill-formed terms refused, the words of 95_test_vectors.md section 2.2 decoded, one step of each command from the
spec's own vectors (sections 2.3 to 2.7; REF record and bank of that file), and one witness for the hypotheses of every obligation. -/

namespace Sys2Proof.Tests

open Sys2Proof Sys2Proof.Machine

/-- The two instruments of 95_test_vectors.md at bank slots 0 and 1. -/
def bank : Mem :=
  [(0, 0x21), (1, 0x01), (2, 0x4F), (3, 0x8A), (4, 0xF2), (5, 0xF1), (6, 0x75), (7, 0x53), (8, 0x0E), (9, 0x00), (10, 0x01)] ++
  [(11, 0x11), (12, 0x31), (13, 0x80), (14, 0x1C), (15, 0xA3), (16, 0xB4), (17, 0x36), (18, 0x27), (19, 0x06), (20, 0x01),
    (21, 0x02)]

/-- The reset state of the vectors. -/
def s0 : State := State.resetWith Config.refParams bank

/-- The reset state with one channel's registers replaced. -/
def onChan (c : Chan) (r : Channel) : State := s0.setChan c r

/-- The block with a word presented on the command port. -/
def given (w : Word) : State := { s0 with pending := [.command w] }

/-- The next state of one command word. -/
def run (w : Word) (s : State) : Option State :=
  match step { s with pending := [.command w] } with
  | .next t => some t
  | .fault _ => none
  | .refused _ => none

/-- The chip writes of one command word. -/
def writes (w : Word) (s : State) : Option (List (Byte × Byte)) := (run w s).map (·.trace)

/-- A channel after one command word. -/
def after (w : Word) (c : Chan) (s : State) : Option Channel := (run w s).map (·.chan c)

/-- The responses after one command word. -/
def said (w : Word) (s : State) : Option (List Response) := (run w s).map (·.responses)

/-! ### Well-formed terms -/

theorem test_wf_accepts : ([.setnote 8 7 15, .setlin 8 0x8000, .getlin 0, .setvol 8 255, .getvol 8, .ldins 30 8, .silence, .fxclr,
    .event 8 7 15 15 255 31, .tick] : List Instr).all Instr.wellFormed = true := by decide
theorem test_wf_setnote_channel : (Instr.setnote 9 4 12).wellFormed = false := by decide
theorem test_wf_setnote_note : (Instr.setnote 0 4 0).wellFormed = false := by decide
theorem test_wf_setlin_channel : (Instr.setlin 9 0).wellFormed = false := by decide
theorem test_wf_getlin_channel : (Instr.getlin 15).wellFormed = false := by decide
theorem test_wf_setvol_channel : (Instr.setvol 9 40).wellFormed = false := by decide
theorem test_wf_getvol_channel : (Instr.getvol 9).wellFormed = false := by decide
theorem test_wf_ldins_channel : (Instr.ldins 0 9).wellFormed = false := by decide
theorem test_wf_ldins_slot : (Instr.ldins 31 0).wellFormed = false := by decide
theorem test_wf_event_channel : (Instr.event 9 0 0 0 0 0).wellFormed = false := by decide

/-! ### Decoding: words written out bit by bit from the spec's formats -/

/-- Format N (R64): op 0001, ch 0110, 17 zeros, oct 001, note 0101. -/
theorem test_decode_setnote : decode 0b0001_0110_00000000000000000_001_0101 = .ok (.setnote 6 1 5) := by decide
/-- Format L (R65): op 0010, ch 0101, 8 zeros, lin 0x03E8. -/
theorem test_decode_setlin : decode 0b0010_0101_00000000_0000001111101000 = .ok (.setlin 5 1000) := by decide
/-- Format C (R66): op 0011, ch 0000, 24 zeros. -/
theorem test_decode_getlin : decode 0b0011_1000_000000000000000000000000 = .ok (.getlin 8) := by decide
/-- Format V (R67): op 0100, ch 0000, 16 zeros, level 0x28. -/
theorem test_decode_setvol : decode 0b0100_0000_0000000000000000_00101000 = .ok (.setvol 0 40) := by decide
/-- Format C (R66): op 0101, ch 1000, 24 zeros. -/
theorem test_decode_getvol : decode 0b0101_1000_000000000000000000000000 = .ok (.getvol 8) := by decide
/-- Format I (R68): op 0110, ch 1000, 19 zeros, ins 11110. -/
theorem test_decode_ldins : decode 0b0110_1000_0000000000000000000_11110 = .ok (.ldins 30 8) := by decide
/-- Format Z (R69): op 0111. -/
theorem test_decode_silence : decode 0b0111_0000000000000000000000000000 = .ok .silence := by decide
/-- Format Z (R69): op 1000. -/
theorem test_decode_fxclr : decode 0b1000_0000000000000000000000000000 = .ok .fxclr := by decide
/-- Format E (R70): op 1001, ch 0001, oct 010, note 1011, ins 00010, cmd 0001, param 0x1E. -/
theorem test_decode_event : decode 0b1001_0001_010_1011_00010_0001_00011110 = .ok (.event 1 2 11 1 30 2) := by decide
/-- Format Z (R69): op 1010. -/
theorem test_decode_tick : decode 0b1010_0000000000000000000000000000 = .ok .tick := by decide
theorem test_decode_table_row : decodeTableWord 32 0x6800001E = some (.ldins 30 8) := by decide
theorem test_encode_event : encode (.event 1 2 11 1 30 2) = 0x9156211E := by decide

/-! ### One step of each command -/

/-- V1. -/
theorem test_setnote_triggers : writes 0x1000004C s0 = some [(0xA0, 0xAE), (0xB0, 0x32)] := by decide
/-- V4: a key-off ignores the octave and keeps the pitch bits. -/
theorem test_setnote_keys_off : writes 0x1000007D (onChan 0 { Channel.reset with flo := 0xAE, fhi := 0x32 }) = some [(0xB0, 0x12)] := by
  decide
/-- V9: -1 wraps to the top of the range. -/
theorem test_setlin_wraps : writes 0x2500FFFF (onChan 5 { Channel.reset with flo := 0x8C, fhi := 0x0A }) =
    some [(0xA5, 0xAE), (0xB5, 0x1E)] := by decide
/-- V13: the key-on bit is kept. -/
theorem test_setlin_keeps_key_on : writes 0x260001D7 (onChan 6 { Channel.reset with flo := 0xCA, fhi := 0x25 }) =
    some [(0xA6, 0xD4), (0xB6, 0x25)] := by decide
/-- V15: the reset shadow is no valid pair. -/
theorem test_getlin_after_reset : said 0x33000000 s0 = some [{ Response.ok with data := -342 }] := by decide
/-- V2: the key-on bit does not enter. -/
theorem test_getlin_of_a_note : said 0x30000000 (onChan 0 { Channel.reset with flo := 0xAE, fhi := 0x32 }) =
    some [{ Response.ok with data := 1724 }] := by decide
/-- V18: the scaling bits are kept. -/
theorem test_setvol_keeps_scaling : writes 0x40000028 (onChan 0 { Channel.reset with vol := 0x4F }) = some [(0x43, 0x57)] := by decide
/-- V19: the level is clamped to 63. -/
theorem test_setvol_clamps : writes 0x400000C8 (onChan 0 { Channel.reset with vol := 0x57 }) = some [(0x43, 0x40)] := by decide
/-- V16. -/
theorem test_getvol_after_reset : said 0x53000000 s0 = some [{ Response.ok with data := 63 }] := by decide
/-- V17, last column. -/
theorem test_getvol_of_an_instrument : said 0x50000000 (onChan 0 { Channel.reset with vol := 0x4F }) =
    some [{ Response.ok with data := 48 }] := by decide
/-- V23. -/
theorem test_ldins_writes : writes 0x68000001 s0 = some [(0x35, 0x11), (0x32, 0x31), (0x55, 0x80), (0x52, 0x1C), (0x75, 0xA3),
    (0x72, 0xB4), (0x95, 0x36), (0x92, 0x27), (0xC8, 0x06), (0xF5, 0x01), (0xF2, 0x02)] := by decide
/-- V17: the whole level byte is the shadow volume. -/
theorem test_ldins_shadow : (after 0x60000000 0 s0).map (·.vol) = some 0x4F := by decide
/-- V25. -/
theorem test_silence : writes 0x70000000 (onChan 8 { Channel.reset with fhi := 0x35 }) = some [(0xB0, 0), (0xB1, 0), (0xB2, 0),
    (0xB3, 0), (0xB4, 0), (0xB5, 0), (0xB6, 0), (0xB7, 0), (0xB8, 0x15)] := by decide
/-- X1, on one channel. -/
theorem test_fxclr : after 0x80000000 2 (onChan 2 { Channel.reset with porta := 30, tsact := true, tstgt := 1101, tsstep := 20, vsl := -20 }) =
    some { Channel.reset with tstgt := 1101, tsstep := 20 } := by decide
/-- E24: key-off, instrument, note, and the set-volume command after them. -/
theorem test_event_note : writes 0x91562C14 s0 = some [(0xB1, 0x00), (0x24, 0x11), (0x21, 0x31), (0x44, 0x80), (0x41, 0x1C),
    (0x64, 0xA3), (0x61, 0xB4), (0x84, 0x36), (0x81, 0x27), (0xC1, 0x06), (0xE4, 0x01), (0xE1, 0x02), (0xA1, 0x87), (0xB1, 0x2A),
    (0x44, 0xAB)] := by decide
/-- E9, E16 and E25: a delta down, the continued slide, the slide to a note with a step of 0. -/
theorem test_event_effects : (after 0x930002FF 3 s0).map (·.porta) = some (-255) ∧
    (after 0x9300053C 3 s0) = some { Channel.reset with tsact := true, vsl := 10 } ∧
    after 0x934A1300 3 s0 = some { Channel.reset with tstgt := 806, tsact := true } := by decide
/-- T12: portamento to 1010, then the slide to 1025. -/
theorem test_tick_order : writes 0xA0000000 (onChan 2 { Channel.reset with
      flo := 0x8C, fhi := 0x2A, porta := 10, tstgt := 1030, tsstep := 15, tsact := true }) =
    some [(0xA2, 0x96), (0xB2, 0x2A), (0xA2, 0xA5), (0xB2, 0x2A)] := by decide +kernel
/-- T9: the level stops at 0. -/
theorem test_tick_volume : writes 0xA0000000 (onChan 8 { Channel.reset with vol := 0xBC, vsl := -255 }) = some [(0x55, 0xBF)] := by
  decide +kernel
/-- F1, F3, F4, F9, F10, F13, F14 and the priorities F16, F17, F19. -/
theorem test_faults : ([(0x00000000, .illegal), (0xFFFFFFFF, .illegal), (0xA1000000, .encoding), (0x20010000, .encoding),
    (0x59000000, .channel), (0x6000001F, .operand), (0x927E0314, .note), (0x1C000100, .encoding), (0x1C000000, .channel),
    (0x9F7E0300, .channel)] : List (Word × Err)).all
      (fun p => run p.1 s0 == some { s0 with responses := [Response.fault p.2] }) = true := by decide
/-- A row of the opcode table runs as the first command after reset. -/
theorem test_first_command : step (State.reset.withFetchWord 32 0x58000000) = exec (.getvol 8) State.reset := by rfl

/-! ### Witnesses: for every obligation with hypotheses, states and operands that meet them, each clause at its boundary -/

/-- The REF record is admissible; most witnesses stand on it. -/
theorem test_admissible : s0.params.admissible = true := by decide +kernel

theorem test_meets_EncodeReturnsTheDecodedWord : decode 0x98FFFFFF = .ok (.event 8 7 15 15 255 31) := by decide

theorem test_meets_UnassignedOpcodesRaiseIllegal : (given 0x0FFFFFFF).rst = false ∧
    (given 0x0FFFFFFF).pending = .command 0x0FFFFFFF :: [] ∧ wordOp 0x0FFFFFFF = 0 ∧
    (given 0xB0000000).pending = .command 0xB0000000 :: [] ∧ 11 ≤ wordOp 0xB0000000 := by decide

/-- The lowest and the highest assigned operation code, each with one reserved bit set. -/
theorem test_meets_ReservedBitsRaiseEncoding : (given 0x10000080).rst = false ∧
    (given 0x10000080).pending = .command 0x10000080 :: [] ∧ wordOp 0x10000080 = 1 ∧ reservedBits 0x10000080 ≠ 0 ∧
    (given 0xA8000000).pending = .command 0xA8000000 :: [] ∧ wordOp 0xA8000000 = 10 ∧ reservedBits 0xA8000000 ≠ 0 ∧
    s0.params.admissible = true := by
  refine ⟨?_, ?_, ?_, ?_, ?_, ?_, ?_, test_admissible⟩ <;> decide

/-- A word of every class, so that each case of the list is met. -/
theorem test_meets_EveryWordIsClassified : (given 0xB0000000).rst = false ∧
    (given 0xB0000000).pending = .command 0xB0000000 :: [] ∧ classify Config.refParams 0xB0000000 = .illegal ∧
    classify Config.refParams 0x1C000100 = .encoding ∧ classify Config.refParams 0x1C000000 = .channel ∧
    classify Config.refParams 0x10000040 = .operand ∧ classify Config.refParams 0x921A0300 = .note ∧
    classify Config.refParams 0x98FFFFFF = .none := by decide

theorem test_meets_FaultsLeaveNoTrace : (given 0x59000000).rst = false ∧
    (given 0x59000000).pending = .command 0x59000000 :: [] ∧
    run 0x59000000 s0 = some (answered s0 (Response.fault .channel)) ∧ (Response.fault .channel).err ≠ .none := by decide

theorem test_meets_AbsentChannelsRaiseChannel :
    ([.setnote 9 0 0, .setlin 9 0, .getlin 9, .setvol 9 0, .getvol 9, .ldins 31 9, .event 9 0 15 3 0 0] : List Instr).all
      (fun i => channelField i == some 9) = true ∧ 9 ≤ (9 : BitVec 4).toNat := by decide

theorem test_meets_EmptyOperandsRaiseOperand : (0 : BitVec 4).toNat ≤ 8 ∧ (8 : BitVec 4).toNat ≤ 8 := by decide

/-- The clauses meet at channel 8 and 9 and at note 12 and 13. -/
theorem test_meets_EventChecksComeFirst : 9 ≤ (9 : BitVec 4).toNat ∧ (8 : BitVec 4).toNat ≤ 8 ∧ 13 ≤ (13 : BitVec 4).toNat ∧
    (12 : BitVec 4).toNat < 13 ∧ (4 : BitVec 4) ≠ s0.params.cmdToneSlide := by decide

theorem test_meets_StepRunsTheDecodedCommand : (given 0x6800001E).rst = false ∧
    (given 0x6800001E).pending = .command 0x6800001E :: [] ∧ decode 0x6800001E = .ok (.ldins 30 8) := by decide

theorem test_meets_IdleKeepsAllState : s0.rst = false ∧ s0.pending = [] := by decide

/-- A state that changes the last byte of the last slot, and another byte to compare with. -/
theorem test_meets_HostLoadsBankByte : ({ s0 with pending := [.bankByte 30 10 0x7F] } : State).rst = false ∧
    ({ s0 with pending := [.bankByte 30 10 0x7F] } : State).pending = .bankByte 30 10 0x7F :: [] ∧
    ((30, 9) : Slot × Offset) ≠ (30, 10) := by decide

theorem test_meets_ResetValuesAreHeld : ({ s0 with pending := [.rst true] } : State).pending = .rst true :: [] ∧
    ({ s0 with rst := true } : State).rst = true ∧
    ∀ k i b rest, ({ s0 with rst := true } : State).pending ≠ .bankByte k i b :: rest := by
  refine ⟨by decide, by decide, fun k i b rest h => ?_⟩
  cases h

theorem test_meets_ResetEmptiesTheTrace : ({ s0 with pending := [.rst true] } : State).pending = .rst true :: [] ∧
    ({ s0 with rst := true, pending := [.rst false] } : State).rst = true ∧
    ({ s0 with rst := true, pending := [.rst false] } : State).pending = .rst false :: [] := by decide

theorem test_meets_CommandWaitsWhileInReset : ({ given 0x70000000 with rst := true } : State).rst = true ∧
    ({ given 0x70000000 with rst := true } : State).pending = .command 0x70000000 :: [] := by decide

theorem test_meets_ResetStateMeetsTheInvariants : Config.refParams.admissible = true ∧ Mem.wf 341 bank = true :=
  ⟨test_admissible, by decide⟩

theorem test_meets_FirstCommandsAfterReset : Config.refParams.admissible = true ∧ (8 : BitVec 4).toNat ≤ 8 :=
  ⟨test_admissible, by decide⟩

theorem test_meets_SetnoteTriggersTheNote : (8 : BitVec 4).toNat = (8 : Chan).val ∧ (1 : BitVec 4).toNat = (0 : Fin 12).val + 1 ∧
    (12 : BitVec 4).toNat = (11 : Fin 12).val + 1 := by decide

theorem test_meets_SetnoteKeysOff : (8 : BitVec 4).toNat = (8 : Chan).val ∧ 13 ≤ (13 : BitVec 4).toNat := by decide

/-- The quotient and remainder at -1, at the last value of octave 0, and at the first of octave 1. -/
theorem test_meets_SetlinStoresTheFrequency : s0.params.admissible = true ∧ 9 ≤ (9 : BitVec 4).toNat ∧
    (8 : BitVec 4).toNat = (8 : Chan).val ∧ (0xFFFF : BitVec 16).toInt = (-1) * s0.params.octaveSpan + 344 ∧
    (344 : Int) < s0.params.octaveSpan ∧ (344 : BitVec 16).toInt = 0 * s0.params.octaveSpan + 344 ∧
    (345 : BitVec 16).toInt = 1 * s0.params.octaveSpan + 0 := by
  refine ⟨test_admissible, ?_, ?_, ?_, ?_, ?_, ?_⟩ <;> decide

theorem test_meets_GetlinReadsTheShadow : s0.params.admissible = true ∧ (8 : BitVec 4).toNat = (8 : Chan).val ∧
    0 ≤ (0 : BitVec 16).toInt ∧ (2759 : BitVec 16).toInt < 8 * s0.params.octaveSpan ∧
    (12 : BitVec 4).toNat = (11 : Fin 12).val + 1 := by
  refine ⟨test_admissible, ?_, ?_, ?_, ?_⟩ <;> decide

theorem test_meets_SetvolStoresTheLevel : 9 ≤ (9 : BitVec 4).toNat ∧ (8 : BitVec 4).toNat = (8 : Chan).val := by decide

theorem test_meets_GetvolReadsTheLevel : (0 : BitVec 4).toNat = (0 : Chan).val := by decide

theorem test_meets_LdinsLoadsTheInstrument : (8 : BitVec 4).toNat = (8 : Chan).val ∧ (30 : BitVec 5).toNat = (30 : Slot).val := by
  decide

/-- A byte the bank lists, and one that no module has filled. -/
theorem test_meets_InsReadReadsTheBank : Mem.read ((1 : Slot).val * 11 + (10 : Offset).val) s0.bank = some 0x02 ∧
    Mem.read ((30 : Slot).val * 11 + (10 : Offset).val) s0.bank = none := by decide

theorem test_meets_EventArmsTheToneSlide : s0.params.admissible = true ∧ (8 : BitVec 4).toNat = (8 : Chan).val ∧
    (12 : BitVec 4).toNat = (11 : Fin 12).val + 1 := by
  refine ⟨test_admissible, ?_, ?_⟩ <;> decide

/-- Command ids 0 and 4 are none of the eight; no instrument, and the last one; notes 12 and 13. -/
theorem test_meets_EventTriggersTheNote : s0.params.admissible = true ∧ (8 : BitVec 4).toNat = (8 : Chan).val ∧
    1 ≤ (12 : BitVec 4).toNat ∧ 0 ∉ s0.params.cmdIds ∧ 4 ∉ s0.params.cmdIds ∧ (31 : BitVec 5).toNat = (30 : Slot).val + 1 ∧
    (12 : BitVec 4).toNat = (11 : Fin 12).val + 1 ∧ 13 ≤ (13 : BitVec 4).toNat := by
  refine ⟨test_admissible, ?_, ?_, ?_, ?_, ?_, ?_, ?_⟩ <;> decide

theorem test_meets_EventWithoutNoteOrEffectDoesNothing : s0.params.admissible = true ∧ (8 : BitVec 4).toNat ≤ 8 ∧
    3 = s0.params.cmdToneSlide ∧ 14 ∉ s0.params.cmdIds := by
  refine ⟨test_admissible, ?_, ?_, ?_⟩ <;> decide

theorem test_meets_EventArmsPortamento : s0.params.admissible = true ∧ (8 : BitVec 4).toNat = (8 : Chan).val :=
  ⟨test_admissible, by decide⟩

/-- A parameter on each side of the middle. -/
theorem test_meets_EventContinuesToneSlide : s0.params.admissible = true ∧ (8 : BitVec 4).toNat = (8 : Chan).val ∧
    (49 : BitVec 8).toNat < s0.params.volSlideMid ∧ s0.params.volSlideMid ≤ (50 : BitVec 8).toNat := by
  refine ⟨test_admissible, ?_, ?_, ?_⟩ <;> decide

theorem test_meets_EventArmsVolumeSlide : s0.params.admissible = true ∧ (0 : BitVec 4).toNat = (0 : Chan).val ∧
    (0 : BitVec 8).toNat < s0.params.volSlideMid ∧ s0.params.volSlideMid ≤ (255 : BitVec 8).toNat := by
  refine ⟨test_admissible, ?_, ?_, ?_⟩ <;> decide

theorem test_meets_EventSetsTheVolume : s0.params.admissible = true ∧ (8 : BitVec 4).toNat = (8 : Chan).val :=
  ⟨test_admissible, by decide⟩

theorem test_meets_EventReportsTheJump : s0.params.admissible = true ∧ (8 : BitVec 4).toNat ≤ 8 := ⟨test_admissible, by decide⟩

theorem test_meets_EventReportsTheSpeed : s0.params.admissible = true ∧ (0 : BitVec 4).toNat ≤ 8 := ⟨test_admissible, by decide⟩

/-- T4's start: linear frequency 2750 on channel 0, portamento 30. -/
def t4 : State := onChan 0 { Channel.reset with flo := 0xA5, fhi := 0x1E, porta := 30 }

/-- The sum 2780 has quotient 8, and so octave 0, and remainder 20; at reset, the other clause, nothing is armed. -/
theorem test_meets_TickAppliesPortamento : t4.params.admissible = true ∧ (∀ e : Chan, e ≠ 0 → (t4.chan e).disarmed) ∧
    (t4.chan 0).tsact = false ∧ (t4.chan 0).vsl = 0 ∧ (t4.chan 0).porta ≠ 0 ∧
    getLin 0 t4 + (t4.chan 0).porta.toInt = 8 * t4.params.octaveSpan + 20 ∧ (20 : Int) < t4.params.octaveSpan ∧
    (s0.chan 0).porta = 0 := by
  refine ⟨test_admissible, ?_, ?_, ?_, ?_, ?_, ?_, ?_⟩ <;> first | decide | (unfold Channel.disarmed; decide)

/-- T7's start: linear frequency 1096 on channel 2, sliding to 1101 by 20. -/
def t7 : State := onChan 2 { Channel.reset with flo := 0x93, fhi := 0x2D, tstgt := 1101, tsstep := 20, tsact := true }

/-- T7's channel at 1121, above the target, with step 15. -/
def t7Down : State := onChan 2 { Channel.reset with flo := 0xAC, fhi := 0x2D, tstgt := 1101, tsstep := 15, tsact := true }

/-- T7's channel at the target. -/
def t7Equal : State := onChan 2 { Channel.reset with flo := 0x98, fhi := 0x2D, tstgt := 1101, tsstep := 20, tsact := true }

/-- Up onto the target, down short of it, and at the target already. -/
theorem test_meets_TickAppliesToneSlide : t7.params.admissible = true ∧ (∀ e : Chan, e ≠ 2 → (t7.chan e).disarmed) ∧
    (t7.chan 2).tsact = true ∧ (t7.chan 2).porta = 0 ∧ (t7.chan 2).vsl = 0 ∧ getLin 2 t7 = 1096 ∧
    (1101 : Int) = min ((1096 : Int) + (t7.chan 2).tsstep.toNat) (t7.chan 2).tstgt.toInt ∧ (1101 : Int) = 3 * t7.params.octaveSpan + 66 ∧
    getLin 2 t7Down = 1121 ∧ (1106 : Int) = max ((1121 : Int) - (t7Down.chan 2).tsstep.toNat) (t7Down.chan 2).tstgt.toInt ∧
    (1106 : Int) = 3 * t7.params.octaveSpan + 71 ∧ getLin 2 t7Equal = (t7Equal.chan 2).tstgt.toInt := by
  refine ⟨test_admissible, ?_, ?_, ?_, ?_, ?_, ?_, ?_, ?_, ?_, ?_, ?_⟩ <;> first | decide | (unfold Channel.disarmed; decide)

/-- T9's start: level 3 on channel 8, and a delta far below it. -/
def t9 : State := onChan 8 { Channel.reset with vol := 0xBC, vsl := -255 }

theorem test_meets_TickAppliesVolumeSlide : (∀ e : Chan, e ≠ 8 → (t9.chan e).disarmed) ∧ (t9.chan 8).porta = 0 ∧
    (t9.chan 8).tsact = false ∧ (t9.chan 8).vsl ≠ 0 := by
  refine ⟨?_, ?_, ?_, ?_⟩ <;> first | decide | (unfold Channel.disarmed; decide)

/-- No tick falls short of the target and one tick reaches it, so both clauses are met. -/
theorem test_meets_ToneSlideConverges : t7.params.admissible = true ∧ (t7.chan 2).porta = 0 ∧ (t7.chan 2).tsact = true ∧
    0 < (t7.chan 2).tsstep.toNat ∧ 0 ≤ getLin 2 t7 ∧ getLin 2 t7 < 8 * t7.params.octaveSpan ∧ 0 ≤ (t7.chan 2).tstgt.toInt ∧
    (t7.chan 2).tstgt.toInt < 8 * t7.params.octaveSpan ∧ getLin 2 t7 ≠ (t7.chan 2).tstgt.toInt ∧
    ((0 : Nat) : Int) * (t7.chan 2).tsstep.toNat < |(t7.chan 2).tstgt.toInt - getLin 2 t7| ∧
    |(t7.chan 2).tstgt.toInt - getLin 2 t7| ≤ ((1 : Nat) : Int) * (t7.chan 2).tsstep.toNat := by
  refine ⟨test_admissible, ?_, ?_, ?_, ?_, ?_, ?_, ?_, ?_, ?_, ?_⟩ <;> decide

/-- T7's channel with step 0. -/
def t7Still : State := onChan 2 { Channel.reset with flo := 0x93, fhi := 0x2D, tstgt := 1101, tsact := true }

theorem test_meets_ZeroStepNeverArrives : t7Still.params.admissible = true ∧ (t7Still.chan 2).porta = 0 ∧
    (t7Still.chan 2).tsact = true ∧ (t7Still.chan 2).tsstep = 0 ∧ 0 ≤ getLin 2 t7Still ∧
    getLin 2 t7Still < 8 * t7Still.params.octaveSpan ∧ getLin 2 t7Still ≠ (t7Still.chan 2).tstgt.toInt := by
  refine ⟨test_admissible, ?_, ?_, ?_, ?_, ?_, ?_⟩ <;> decide

theorem test_meets_PortamentoRampWraps : t4.params.admissible = true ∧ (t4.chan 0).porta ≠ 0 ∧ (t4.chan 0).tsact = false := by
  refine ⟨test_admissible, ?_, ?_⟩ <;> decide

/-- The highest frequency number of octave 7 and the highest linear frequency. -/
theorem test_meets_LinearFrequencyRoundTrips : Config.refParams.admissible = true ∧
    Config.refParams.baseFnum ≤ (0x2AE : BitVec 10).toNat ∧
    (0x2AE : BitVec 10).toNat < Config.refParams.baseFnum + Config.refParams.octaveSpan ∧
    (2759 : Int) < 8 * Config.refParams.octaveSpan := by
  refine ⟨test_admissible, ?_, ?_, ?_⟩ <;> decide

theorem test_meets_VolumeRoundTrips : (8 : BitVec 4).toNat = (8 : Chan).val := by decide

/-- SETNOTE at both sides of its two rows' boundary, and a channel beside the named one. -/
theorem test_meets_AccessTableHolds : channelField (.setnote 8 7 12) = some 8 ∧ (12 : BitVec 4).toNat ≤ 12 ∧
    channelField (.setnote 8 7 13) = some 8 ∧ ¬(13 : BitVec 4).toNat ≤ 12 ∧ (8 : BitVec 4).toNat ≠ (7 : Chan).val := by decide

/-- Two states that differ on channel 3 and agree on channel 8. -/
theorem test_meets_OtherChannelsDoNotInterfere : channelField (.event 8 7 12 12 63 31) = some 8 ∧
    (8 : BitVec 4).toNat = (8 : Chan).val ∧ s0.params = (onChan 3 { Channel.reset with vol := 0x3F }).params ∧
    s0.bank = (onChan 3 { Channel.reset with vol := 0x3F }).bank ∧
    s0.chan 8 = (onChan 3 { Channel.reset with vol := 0x3F }).chan 8 := by decide

/-- Right after reset nothing has been written, so chip and shadow agree. -/
theorem test_shadow_inv : (given 0x1000004C).ShadowInv := fun _ =>
  ⟨fun _ h => (nomatch h), fun _ h => (nomatch h), fun _ h => (nomatch h)⟩

/-- The reset values are legal. -/
theorem test_regs_legal : (given 0x1000004C).RegsLegal := by
  unfold State.RegsLegal Channel.Legal
  decide

theorem test_meets_EveryStepKeepsTheShadowInvariant : (given 0x1000004C).params.admissible = true ∧
    (given 0x1000004C).ShadowInv ∧ ∃ t, step (given 0x1000004C) = .next t := ⟨test_admissible, test_shadow_inv, _, rfl⟩

theorem test_meets_EveryStepKeepsRegistersLegal : (given 0x1000004C).params.admissible = true ∧
    (given 0x1000004C).RegsLegal ∧ ∃ t, step (given 0x1000004C) = .next t := ⟨test_admissible, test_regs_legal, _, rfl⟩

theorem test_meets_EveryStepKeepsMemoriesCanonical : (given 0x60000000).MemInv ∧ ∃ t, step (given 0x60000000) = .next t :=
  ⟨⟨by decide, by decide⟩, _, rfl⟩

theorem test_meets_EveryStepKeepsTheImage : (given 0x60000000).ImageInv ∧ ∃ t, step (given 0x60000000) = .next t :=
  ⟨fun _ => rfl, _, rfl⟩

theorem test_meets_NoStepChangesParametersOrBank : (∃ t, step (given 0x60000000) = .next t) ∧
    ∀ k i b rest, (given 0x60000000).pending ≠ .bankByte k i b :: rest :=
  ⟨⟨_, rfl⟩, fun _ _ _ _ h => by cases h⟩

theorem test_meets_WritesOnlyAppendMappedRegisters : (given 0x60000000).params.admissible = true ∧ (given 0x60000000).rst = false ∧
    ∃ t, step (given 0x60000000) = .next t ∧ t.rst = false := ⟨test_admissible, rfl, _, rfl, rfl⟩

end Sys2Proof.Tests
end

/-! SUPPORT. What the host's change of one bank byte does to later reads of the bank (20_memory.md rules R49, R55). -/

namespace Sys2Proof.Machine

theorem State.held_of_low {s : State} (hrst : s.rst = false) : s.held = s := by
  simp [State.held, hrst]

@[simp] theorem State.loadBankByte_insRead_self (s : State) (k : Slot) (i : Offset) (b : Byte) :
    (s.loadBankByte k i b).insRead k i = b := by
  simp [State.insRead]

/-- Distinct instrument bytes have distinct bank addresses, so the write misses the byte read. -/
theorem State.loadBankByte_insRead_ne (s : State) {k l : Slot} {i j : Offset} (b : Byte) (h : (l, j) ≠ (k, i)) :
    (s.loadBankByte k i b).insRead l j = s.insRead l j := by
  have haddr : bankAddr l j ≠ bankAddr k i := fun ha => h (Prod.ext_iff.mpr (bankAddr_inj ha))
  simp only [State.insRead, State.loadBankByte_bank, Mem.read_write_ne b s.bank haddr]

/-- Settles O14: out of reset the step is the bank write alone, and taking the input off `pending` leaves reads to the laws of that
write. -/
theorem hostLoadsBankByte : Obligations.HostLoadsBankByte := by
  intro s k i b rest hrst hp
  have hstep : step s = .next { s.loadBankByte k i b with pending := rest } := by
    rw [step_bankByte hp, State.held_of_low hrst]
  exact ⟨_, hstep, State.loadBankByte_insRead_self s k i b, fun _ _ h => State.loadBankByte_insRead_ne s b h, rfl⟩

end Sys2Proof.Machine

/-! SUPPORT. The decoder as a list of causes (30_encoding.md rule R72): every word is unassigned, or sets a reserved bit, or stands for
one command; and the word of an EVENT decodes to it (rule R70). -/

namespace Sys2Proof.Machine

/-- The command named by a word whose operation code is assigned and whose reserved bits are not looked at (rules R63 to R70). -/
def commandOf (w : Word) : Instr :=
  match wordOp w with
  | 1 => .setnote (field w 24 4) (field w 4 3) (field w 0 4)
  | 2 => .setlin (field w 24 4) (field w 0 16)
  | 3 => .getlin (field w 24 4)
  | 4 => .setvol (field w 24 4) (field w 0 8)
  | 5 => .getvol (field w 24 4)
  | 6 => .ldins (field w 0 5) (field w 24 4)
  | 7 => .silence
  | 8 => .fxclr
  | 9 => .event (field w 24 4) (field w 21 3) (field w 17 4) (field w 8 4) (field w 0 8) (field w 12 5)
  | _ => .tick

theorem decode_unassigned {w : Word} (h : wordOp w = 0 ∨ 11 ≤ wordOp w) : decode w = .error .illegal := by
  rw [decode_eq]
  exact decodeOp_unassigned w h

/-- On the assigned operation codes the decoder refuses for the reserved bits alone (rule R62). -/
theorem decode_assigned {w : Word} (h : ¬(wordOp w = 0 ∨ 11 ≤ wordOp w)) :
    decode w = if reservedBits w ≠ 0 then .error .encoding else .ok (commandOf w) := by
  obtain ⟨hlo, hhi⟩ : 1 ≤ wordOp w ∧ wordOp w ≤ 10 := by omega
  have hd : decode w = decodeOp w (wordOp w) := decode_eq w
  rw [hd]
  generalize hw : wordOp w = op at hlo hhi
  interval_cases op <;> simp [decodeOp, ifReservedZero, field_eq_iff, reservedBits, commandOf, hw]

theorem decode_encode_event (ch : BitVec 4) (oct : BitVec 3) (note cmd : BitVec 4) (param : BitVec 8) (ins : BitVec 5) :
    decode (encode (.event ch oct note cmd param ins)) = .ok (.event ch oct note cmd param ins) := by
  have hop : encodeNat (.event ch oct note cmd param ins) / 2 ^ 28 = 9 := by
    simp only [encodeNat]
    omega
  rw [decode_eq, encode_toNat, hop]
  simp only [decodeOp, Except.ok.injEq, Instr.event.injEq, field_eq_iff, encode_toNat, encodeNat]
  omega

end Sys2Proof.Machine

/-! SUPPORT. EVENT with command id 0 (41_event.md rule R124), and what a word with a reserved bit set is answered. -/

namespace Sys2Proof.Machine

/-- A command id of 0 is no effect's id, so the dispatch looks at no `param` (rules R6(f), R124). -/
theorem dispatchCommand_zero {s : State} (h : s.params.admissible = true) (c : Chan) (param : Byte) :
    dispatchCommand c 0 param s = finish .ok s := by
  have hz := zero_not_cmdId h
  simp only [Params.cmdIds, List.mem_cons, List.not_mem_nil, or_false, not_or] at hz
  simp only [dispatchCommand, hz, if_false]

theorem exec_event_zero_param {s : State} (h : s.params.admissible = true) (ch : BitVec 4) (oct : BitVec 3) (note : BitVec 4)
    (param : BitVec 8) (ins : BitVec 5) : exec (.event ch oct note 0 param ins) s = exec (.event ch oct note 0 0 ins) s := by
  have hslide : (0 : BitVec 4) ≠ s.params.cmdToneSlide := fun hz => zero_not_cmdId h (by simp [Params.cmdIds, ← hz])
  have hnote (c : Chan) : (if note ≠ 0 then triggerNote c oct note ins s else s).params.admissible = true := by
    split
    · rwa [(triggerNote_wrote c oct note ins s).params]
    · exact h
  simp only [exec, execEvent, hslide, and_false, if_false, dispatchCommand_zero (hnote _)]

/-- Settles O5: the decoder refuses the word, so the step is the fault; and with `cmd = 0` the dispatch reads no `param`. -/
theorem reservedBitsRaiseEncoding : Obligations.ReservedBitsRaiseEncoding := by
  refine ⟨fun s w rest hrst hp hlo hhi hres => ?_, fun s ch oct note param ins h =>
    ⟨decode_encode_event ch oct note 0 param ins, exec_event_zero_param h ch oct note param ins⟩⟩
  have hd : decode w = .error .encoding := by rw [decode_assigned (by omega), if_pos hres]
  rw [step_command hrst hp, hd]
  rfl

end Sys2Proof.Machine

/-! SUPPORT. The error code a command answers, read off its operands (30_encoding.md rule R72 items 3 to 5), and the classification of
every command word. -/

namespace Sys2Proof.Machine

/-- The code in the last response of a state that a step leads to. -/
def answeredErr : Host.Outcome State Fault Refusal → Err
  | .next t => (t.responses.getLast?.map (·.err)).getD .none
  | .fault _ => .none
  | .refused _ => .none

@[simp] theorem answeredErr_next_respond (r : Response) (s : State) : answeredErr (.next (s.respond r)) = r.err := by
  simp [answeredErr]

@[simp] theorem answeredErr_finish (r : Response) (s : State) : answeredErr (finish r s) = r.err := answeredErr_next_respond r s

@[simp] theorem answeredErr_raise (e : Err) (s : State) : answeredErr (raise e s) = e := answeredErr_next_respond (.fault e) s

/-- The channel check comes before every other cause (rule R153). -/
def channelErr (ch : BitVec 4) (e : Err) : Err := if 9 ≤ ch.toNat then .channel else e

theorem answeredErr_withChannel {ch : BitVec 4} {s : State} {k : Chan → Host.Outcome State Fault Refusal} {e : Err}
    (h : ∀ c, answeredErr (k c) = e) : answeredErr (withChannel ch s k) = channelErr ch e := by
  by_cases hch : 9 ≤ ch.toNat
  · rw [withChannel_absent hch, answeredErr_raise, channelErr, if_pos hch]
  · have hc : ch.toNat = (⟨ch.toNat, by omega⟩ : Chan).val := rfl
    rw [withChannel_eq hc, h, channelErr, if_neg hch]

/-- The code a decoded command answers: the first operand that names nothing, or none (rule R72 items 3 to 5). -/
def operandErr (P : Params) : Instr → Err
  | .setnote ch _ note => channelErr ch (if note = 0 then .operand else .none)
  | .setlin ch _ => channelErr ch .none
  | .getlin ch => channelErr ch .none
  | .setvol ch _ => channelErr ch .none
  | .getvol ch => channelErr ch .none
  | .ldins ins ch => channelErr ch (if ins.toNat = 31 then .operand else .none)
  | .silence => .none
  | .fxclr => .none
  | .event ch _ note cmd _ _ => channelErr ch (if cmd = P.cmdToneSlide ∧ 13 ≤ note.toNat then .note else .none)
  | .tick => .none

/-- No effect of EVENT faults (rules R116 to R124). -/
theorem answeredErr_dispatchCommand (c : Chan) (cmd : BitVec 4) (param : Byte) (s : State) :
    answeredErr (dispatchCommand c cmd param s) = .none := by
  unfold dispatchCommand
  repeat' split
  all_goals exact answeredErr_finish _ _

theorem noteIndex_eq_none_iff {note : BitVec 4} (h : note ≠ 0) : noteIndex note = none ↔ 13 ≤ note.toNat := by
  have h0 : note.toNat ≠ 0 := fun hn => h (BitVec.eq_of_toNat_eq hn)
  simp only [noteIndex, dite_eq_right_iff, reduceCtorEq, imp_false]
  omega

theorem slotOf_eq_none_iff (ins : BitVec 5) : slotOf ins = none ↔ ins.toNat = 31 := by
  simp only [slotOf, dite_eq_right_iff, reduceCtorEq, imp_false]
  omega

theorem answeredErr_execEvent (ch : BitVec 4) (oct : BitVec 3) (note cmd : BitVec 4) (param : BitVec 8) (ins : BitVec 5)
    (s : State) : answeredErr (execEvent ch oct note cmd param ins s) =
      channelErr ch (if cmd = s.params.cmdToneSlide ∧ 13 ≤ note.toNat then .note else .none) := by
  refine answeredErr_withChannel fun c => ?_
  by_cases hslide : note ≠ 0 ∧ cmd = s.params.cmdToneSlide
  · obtain ⟨hnote, hcmd⟩ := hslide
    rw [if_pos ⟨hnote, hcmd⟩]
    cases hn : noteIndex note with
    | none => simp [hcmd, (noteIndex_eq_none_iff hnote).mp hn]
    | some n =>
      have hlt : ¬13 ≤ note.toNat := fun h => by simp [(noteIndex_eq_none_iff hnote).mpr h] at hn
      simp [hlt, Response.ok]
  · have hno : ¬(cmd = s.params.cmdToneSlide ∧ 13 ≤ note.toNat) := fun ⟨hcmd, h⟩ => hslide ⟨note_ne_zero (by omega), hcmd⟩
    rw [if_neg hslide, if_neg hno, answeredErr_dispatchCommand]

theorem answeredErr_exec (i : Instr) (s : State) : answeredErr (exec i s) = operandErr s.params i := by
  cases i with
  | setnote ch oct note =>
    refine answeredErr_withChannel fun c => ?_
    split
    · exact answeredErr_raise _ _
    · exact answeredErr_finish _ _
  | setlin ch lin => exact answeredErr_withChannel fun c => answeredErr_finish _ _
  | getlin ch => exact answeredErr_withChannel fun c => answeredErr_finish _ _
  | setvol ch level => exact answeredErr_withChannel fun c => answeredErr_finish _ _
  | getvol ch => exact answeredErr_withChannel fun c => answeredErr_finish _ _
  | ldins ins ch =>
    refine answeredErr_withChannel fun c => ?_
    cases h : slotOf ins with
    | some idx =>
      have h31 : ins.toNat ≠ 31 := fun h' => by simp [(slotOf_eq_none_iff ins).mpr h'] at h
      simp [h31, Response.ok]
    | none => simp [(slotOf_eq_none_iff ins).mp h]
  | silence => exact answeredErr_finish _ _
  | fxclr => exact answeredErr_finish _ _
  | event ch oct note cmd param ins => exact answeredErr_execEvent ch oct note cmd param ins s
  | tick => exact answeredErr_finish _ _

/-- Past the decoder's two causes the list of rule R72 reads the same operands as the command does. -/
theorem classify_eq_operandErr (P : Params) {w : Word} (h : ¬(wordOp w = 0 ∨ 11 ≤ wordOp w)) (hres : reservedBits w = 0) :
    classify P w = operandErr P (commandOf w) := by
  obtain ⟨hlo, hhi⟩ : 1 ≤ wordOp w ∧ wordOp w ≤ 10 := by omega
  simp only [classify, if_neg h, hres, ne_eq, not_true_eq_false, if_false]
  generalize hw : wordOp w = op at hlo hhi
  interval_cases op <;> simp [commandOf, hw, operandErr, channelErr, field_toNat, ← BitVec.toNat_inj]

/-- Every command word is answered the first cause of rule R72 that it meets. -/
theorem step_command_classified {s : State} {w : Word} {rest : List HostInput} (hrst : s.rst = false)
    (hp : s.pending = .command w :: rest) :
    Ends { s with pending := rest } (step s) ∧ answeredErr (step s) = classify s.params w := by
  rw [step_command hrst hp]
  by_cases hop : wordOp w = 0 ∨ 11 ≤ wordOp w
  · rw [decode_unassigned hop, classify, if_pos hop]
    exact ⟨raise_ends (by decide) _, answeredErr_raise _ _⟩
  by_cases hres : reservedBits w ≠ 0
  · rw [decode_assigned hop, if_pos hres, classify, if_neg hop, if_pos hres]
    exact ⟨raise_ends (by decide) _, answeredErr_raise _ _⟩
  · rw [decode_assigned hop, if_neg hres, classify_eq_operandErr s.params hop (not_not.mp hres)]
    exact ⟨exec_ends _ _, answeredErr_exec _ _⟩

/-- A command that ends answers one response, and changes nothing but the responses if the response carries a fault (rule R151). -/
theorem Ends.answers {s : State} {o : Host.Outcome State Fault Refusal} (h : Ends s o) :
    ∃ t r, o = .next t ∧ t.responses = s.responses ++ [r] ∧ r.err = answeredErr o ∧
      (answeredErr o ≠ .none → t = s.respond r) := by
  obtain ⟨e, -, rfl⟩ | ⟨t, ws, r, hr, ⟨-, -, hresp, -⟩, rfl⟩ := h
  · exact ⟨_, Response.fault e, rfl, rfl, (answeredErr_raise e s).symm, fun _ => rfl⟩
  · have herr := answeredErr_next_respond r t
    exact ⟨_, r, rfl, by rw [State.respond_responses, hresp], herr.symm, fun hf => absurd (herr.trans hr) hf⟩

/-- Settles O6: the step ends like every command, with the code of the first cause that the word meets. -/
theorem everyWordIsClassified : Obligations.EveryWordIsClassified := by
  intro s w rest hrst hp
  obtain ⟨hends, herr⟩ := step_command_classified hrst hp
  rw [← herr]
  exact hends.answers

end Sys2Proof.Machine

/-! SUPPORT. How a driver command that acts on one channel ends (40_driver.md rules R92 to R97): the state each one answers, and its
registers, writes and response, all from the laws of the operation it calls. -/

namespace Sys2Proof.Machine

theorem exec_setnote {ch : BitVec 4} {c : Chan} (hch : ch.toNat = c.val) (oct : BitVec 3) {note : BitVec 4} (hn : 1 ≤ note.toNat)
    (s : State) : exec (.setnote ch oct note) s = .next ((setNote c oct note s).respond .ok) :=
  (withChannel_eq hch s _).trans (if_neg (note_ne_zero hn))

theorem exec_setlin {ch : BitVec 4} {c : Chan} (hch : ch.toNat = c.val) (lin : BitVec 16) (s : State) :
    exec (.setlin ch lin) s = .next ((setLin c lin.toInt s).respond .ok) :=
  withChannel_eq hch s _

theorem exec_getlin {ch : BitVec 4} {c : Chan} (hch : ch.toNat = c.val) (s : State) :
    exec (.getlin ch) s = .next (answered s { Response.ok with data := i16 (getLin c s) }) :=
  withChannel_eq hch s _

theorem exec_setvol {ch : BitVec 4} {c : Chan} (hch : ch.toNat = c.val) (level : BitVec 8) (s : State) :
    exec (.setvol ch level) s = .next ((setVol c level.toNat s).respond .ok) :=
  withChannel_eq hch s _

theorem exec_getvol {ch : BitVec 4} {c : Chan} (hch : ch.toNat = c.val) (s : State) :
    exec (.getvol ch) s = .next (answered s { Response.ok with data := i16 (getVol c s) }) :=
  withChannel_eq hch s _

theorem exec_ldins {ch : BitVec 4} {c : Chan} {ins : BitVec 5} {k : Slot} (hch : ch.toNat = c.val) (hk : ins.toNat = k.val)
    (s : State) : exec (.ldins ins ch) s = .next ((loadIns k c s).respond .ok) := by
  have h : exec (.ldins ins ch) s = _ := withChannel_eq hch s _
  rw [h, slotOf_eq hk]
  rfl

/-- An operation that sets the registers of channel `c` alone, ended by a response: what it did, in the terms of the claims. -/
theorem Wrote.channel_ran {s t : State} {ws : List (Byte × Byte)} {c : Chan} {r : Channel} (hw : Wrote s t ws)
    (hc : ∀ e, t.chan e = if e = c then r else s.chan e) (rsp : Response) :
    (t.respond rsp).chan c = r ∧ OtherChannelsKept c s (t.respond rsp) ∧ Ran s (t.respond rsp) ws rsp :=
  ⟨(hc c).trans (if_pos rfl), fun e he => (hc e).trans (if_neg he), hw.ran rsp⟩

/-- What GETLIN reads after such an operation, the response not entering (rule R86). -/
theorem Wrote.getLin_respond {s t : State} {ws : List (Byte × Byte)} {c : Chan} {r : Channel} (hw : Wrote s t ws)
    (hc : ∀ e, t.chan e = if e = c then r else s.chan e) (rsp : Response) : getLin c (t.respond rsp) = r.linear s.params := by
  rw [getLin, State.respond_chan, State.respond_params, hc, if_pos rfl, hw.params]

end Sys2Proof.Machine

/-! SUPPORT. What SETNOTE stores, and the linear frequency of it (40_driver.md rules R80, R83, R84, R86). -/

namespace Sys2Proof.Machine

theorem setNote_of_note (c : Chan) (oct : BitVec 3) {note : BitVec 4} {n : Fin 12} (h : note.toNat = n.val + 1) (s : State) :
    setNote c oct note s = noteOn c oct n s := by
  simp only [setNote, noteIndex_eq h]

theorem setNote_of_keyOff (c : Chan) (oct : BitVec 3) {note : BitVec 4} (h : 13 ≤ note.toNat) (s : State) :
    setNote c oct note s = keyOff c s := by
  simp only [setNote, noteIndex_none (.inr h)]

/-- The key-on bit does not enter the linear frequency (rule R86). -/
theorem linear_keyedOff (P : Params) (r : Channel) : Channel.linear P { r with fhi := fhiKeyedOff r.fhi } = r.linear P := by
  have hoct : r.fhi.toNat % 32 / 4 % 8 = r.fhi.toNat / 4 % 8 := by omega
  have hfnh : r.fhi.toNat % 32 % 4 = r.fhi.toNat % 4 := by omega
  simp only [channel_linear, fhiKeyedOff_toNat, hoct, hfnh]

/-- The shadow of a note reads back as the note's linear frequency (rules R80, R83). -/
theorem linear_noteOn (P : Params) (oct : BitVec 3) (f : BitVec 10) (r : Channel) :
    Channel.linear P { r with flo := fnumLow f, fhi := 0x20 ||| pitchHigh oct f } = toLinear P oct f := by
  have hf := f.isLt
  have ho := oct.isLt
  have hoct : (32 + (4 * oct.toNat + f.toNat / 256)) / 4 % 8 = oct.toNat := by omega
  have hfnum : (32 + (4 * oct.toNat + f.toNat / 256)) % 4 * 256 + f.toNat % 256 = f.toNat := by omega
  simp only [channel_linear, fhi_noteOn_toNat, fnumLow_toNat, hoct, hfnum, toLinear]

/-- Settles O21: the command is `noteOn`, whose two bytes are the note's as numbers. -/
theorem setnoteTriggersTheNote : Obligations.SetnoteTriggersTheNote := by
  intro s ch c oct note n hch hnote
  have hexec := exec_setnote hch oct (note := note) (by omega) s
  rw [setNote_of_note c oct hnote] at hexec
  exact ⟨_, _, _, hexec, fnumLow_toNat _, (fhi_noteOn_toNat _ _).trans (Nat.add_assoc _ _ _).symm,
    (noteOn_wrote c oct n s).channel_ran (noteOn_chan c oct n s) .ok⟩

/-- Settles O22: the command is `keyOff`, which keeps the pitch bits. -/
theorem setnoteKeysOff : Obligations.SetnoteKeysOff := by
  intro s ch c oct note hch hnote
  have hexec := exec_setnote hch oct (note := note) (by omega) s
  rw [setNote_of_keyOff c oct hnote] at hexec
  have hw := keyOff_wrote c s
  have hc := keyOff_chan c s
  obtain ⟨hchan, hothers, hran⟩ := hw.channel_ran hc .ok
  exact ⟨_, _, hexec, fhiKeyedOff_toNat _, hchan, hothers, hran, (hw.getLin_respond hc .ok).trans (linear_keyedOff _ _)⟩

end Sys2Proof.Machine

/-! SUPPORT. SETLIN and GETLIN (40_driver.md rules R81, R86, R93, R94): the bytes of a linear frequency split into octave and offset, and
that every shadow's linear frequency fits the response. -/

namespace Sys2Proof.Machine

/-- Storing an exact integer in its range loses nothing (rule R7). -/
theorem i16_toInt {x : Int} (hlo : -32768 ≤ x) (hhi : x < 32768) : (i16 x).toInt = x := by
  rw [i16, BitVec.toInt_ofInt_eq_self (by decide) hlo hhi]

/-- The linear frequency of any shadow, valid pair or not, lies in the range of the response's data field (rules R6, R86). -/
theorem linear_bounds {P : Params} (h : P.admissible = true) (r : Channel) : -32768 ≤ r.linear P ∧ r.linear P < 32768 := by
  have hbase := base_span_le h
  have hmul : r.fhi.toNat / 4 % 8 * P.octaveSpan ≤ 7 * 1024 := Nat.mul_le_mul (by omega) (by omega)
  have hflo := r.flo.isLt
  rw [channel_linear, ← Int.natCast_mul]
  generalize r.fhi.toNat / 4 % 8 * P.octaveSpan = m at hmul
  omega

theorem withLinear_flo_split {P : Params} (hP : P.admissible = true) {q r : Int} (h0 : 0 ≤ r) (h1 : r < P.octaveSpan)
    (u : Channel) : ((u.withLinear P (q * P.octaveSpan + r)).flo.toNat : Int) = (P.baseFnum + r) % 256 := by
  obtain ⟨-, hf⟩ := fromLinear_split (q := q) h0 h1 (base_span_le hP)
  rw [withLinear_flo_toNat, Int.natCast_emod, hf]
  rfl

theorem withLinear_fhi_split {P : Params} (hP : P.admissible = true) {q r : Int} (h0 : 0 ≤ r) (h1 : r < P.octaveSpan)
    (u : Channel) : ((u.withLinear P (q * P.octaveSpan + r)).fhi.toNat : Int) =
      (u.fhi.toNat / 32 % 2 * 32 : Nat) + 4 * (q % 8) + (P.baseFnum + r) / 256 := by
  obtain ⟨ho, hf⟩ := fromLinear_split (q := q) h0 h1 (base_span_le hP)
  rw [withLinear_fhi_toNat, ← ho, ← hf]
  push_cast
  ring

/-- Settles O23: the command is `setLin` of its operand, whose bytes follow from the operand's split. -/
theorem setlinStoresTheFrequency : Obligations.SetlinStoresTheFrequency := by
  intro s ch lin hP
  refine ⟨fun habs => withChannel_absent habs s _, fun c q r hch hlin h0 h1 => ?_⟩
  have hw := setLin_wrote c lin.toInt s
  have hc := setLin_chan c lin.toInt s
  have hexec := exec_setlin hch lin s
  rw [hlin] at hw hc hexec
  exact ⟨_, _, _, hexec, withLinear_flo_split hP h0 h1 _, withLinear_fhi_split hP h0 h1 _, hw.channel_ran hc .ok⟩

/-- Settles O24: GETLIN answers the shadow's linear frequency, which fits the response and reads back what SETLIN and a note store. -/
theorem getlinReadsTheShadow : Obligations.GetlinReadsTheShadow := by
  intro s ch c hP hch
  refine ⟨⟨_, ?_, exec_getlin hch s⟩, fun lin h0 h1 => ⟨_, exec_setlin hch lin s, ?_⟩, fun oct note n hnote =>
    ⟨_, exec_setnote hch oct (by omega) s, ?_⟩⟩
  · obtain ⟨hlo, hhi⟩ := linear_bounds hP (s.chan c)
    rw [← channel_linear]
    exact i16_toInt hlo hhi
  · rw [(setLin_wrote c lin.toInt s).getLin_respond (setLin_chan c lin.toInt s),
      linear_withLinear (span_pos hP) (base_span_le hP), Int.emod_eq_of_lt h0 h1]
  · rw [setNote_of_note c oct hnote, (noteOn_wrote c oct n s).getLin_respond (noteOn_chan c oct n s), linear_noteOn]

end Sys2Proof.Machine

/-! SUPPORT. SETVOL, GETVOL, LDINS and SILENCE (40_driver.md rules R87, R88, R90, R91, R95 to R98). -/

namespace Sys2Proof.Machine

/-- Settles O25: an absent channel is refused; a present one runs `setVol`, whose byte is known as a number. -/
theorem setvolStoresTheLevel : Obligations.SetvolStoresTheLevel := by
  intro s ch level
  exact ⟨fun habs => withChannel_absent habs s _, fun c hch => ⟨_, _, exec_setvol hch level s, volWithLevel_toNat _ _,
    (setVol_wrote c level.toNat s).channel_ran (setVol_chan c level.toNat s) .ok⟩⟩

/-- Settles O26: the level is 0..63, so the response's data field holds it exactly. -/
theorem getvolReadsTheLevel : Obligations.GetvolReadsTheLevel := by
  intro s ch c hch
  refine ⟨_, ?_, exec_getvol hch s⟩
  have hlevel : getVol c s = 63 - (s.chan c).vol.toNat % 64 := channel_level _
  rw [i16_toInt (by omega) (by omega)]
  omega

/-- Settles O27: the command is `loadIns`, whose list of writes is the statement's eleven. -/
theorem ldinsLoadsTheInstrument : Obligations.LdinsLoadsTheInstrument := by
  intro s ch c ins k hch hk
  exact ⟨_, exec_ldins hch hk s, (loadIns_wrote k c s).channel_ran (loadIns_chan k c s) .ok⟩

/-- Settles O29: the loop over the channels is one key-off each, in the channels' order. -/
theorem silenceKeysOffEveryChannel : Obligations.SilenceKeysOffEveryChannel := by
  intro s
  obtain ⟨hw, hc⟩ := silence_wrote s
  exact ⟨_, fun c => fhiKeyedOff (s.chan c).fhi, rfl, fun c => fhiKeyedOff_toNat _, hc, hw.ran .ok⟩

end Sys2Proof.Machine

/-! SUPPORT. FXCLR and the two checks of EVENT (41_event.md rules R110, R113). -/

namespace Sys2Proof.Machine

/-- Settles O30: the loop over the channels disarms each one once and writes nothing. -/
theorem fxclrDisarmsEveryChannel : Obligations.FxclrDisarmsEveryChannel := by
  intro s
  obtain ⟨hw, hc⟩ := fxclr_wrote s
  exact ⟨_, rfl, hc, hw.ran .ok⟩

/-- A channel field of 0..8 names a channel (rule R23). -/
theorem exists_chan {ch : BitVec 4} (h : ch.toNat ≤ 8) : ∃ c : Chan, ch.toNat = c.val := ⟨⟨ch.toNat, by omega⟩, rfl⟩

theorem exec_event_slide {ch : BitVec 4} {c : Chan} (hch : ch.toNat = c.val) (oct : BitVec 3) {note : BitVec 4} {n : Fin 12}
    (hnote : note.toNat = n.val + 1) (param : BitVec 8) (ins : BitVec 5) (s : State) :
    exec (.event ch oct note s.params.cmdToneSlide param ins) s = .next ((slideToNote c oct n param s).respond .ok) := by
  have h : exec (.event ch oct note s.params.cmdToneSlide param ins) s = _ :=
    (withChannel_eq hch s _).trans (if_pos ⟨note_ne_zero (by omega), rfl⟩)
  rw [h, noteIndex_eq hnote]
  rfl

/-- A slide to a value that is no note is refused (rule R113). -/
theorem exec_event_slide_noNote {ch : BitVec 4} {c : Chan} (hch : ch.toNat = c.val) (oct : BitVec 3) {note : BitVec 4}
    (hnote : 13 ≤ note.toNat) (param : BitVec 8) (ins : BitVec 5) (s : State) :
    exec (.event ch oct note s.params.cmdToneSlide param ins) s = raise .note s := by
  have h : exec (.event ch oct note s.params.cmdToneSlide param ins) s = _ :=
    (withChannel_eq hch s _).trans (if_pos ⟨note_ne_zero (by omega), rfl⟩)
  rw [h, noteIndex_none (.inr hnote)]

/-- The state EVENT's dispatch meets: the note triggered, if there is one (rules R115, R116). -/
def noteHandled (c : Chan) (oct : BitVec 3) (note : BitVec 4) (ins : BitVec 5) (s : State) : State :=
  if note ≠ 0 then triggerNote c oct note ins s else s

@[simp] theorem noteHandled_zero (c : Chan) (oct : BitVec 3) (ins : BitVec 5) (s : State) : noteHandled c oct 0 ins s = s :=
  if_neg fun h => h rfl

/-- EVENT in every other case handles the note and then dispatches the command (rule R116). -/
theorem exec_event_dispatch {ch : BitVec 4} {c : Chan} (hch : ch.toNat = c.val) (oct : BitVec 3) {note cmd : BitVec 4}
    (param : BitVec 8) (ins : BitVec 5) {s : State} (hslide : ¬(note ≠ 0 ∧ cmd = s.params.cmdToneSlide)) :
    exec (.event ch oct note cmd param ins) s = dispatchCommand c cmd param (noteHandled c oct note ins s) :=
  (withChannel_eq hch s _).trans (if_neg hslide)

/-- Settles O11: the two faults are the two checks, and the code answered in every other case is none. -/
theorem eventChecksComeFirst : Obligations.EventChecksComeFirst := by
  intro s ch oct note param ins
  refine ⟨fun habs cmd => withChannel_absent habs s _, fun hch hnote => ?_, fun hch cmd hok => ?_⟩
  · obtain ⟨c, hc⟩ := exists_chan hch
    exact exec_event_slide_noNote hc oct hnote param ins s
  · obtain ⟨t, r, hexec, hresp, herr, -⟩ := (exec_ends (.event ch oct note cmd param ins) s).answers
    have hnoSlideFault : ¬(cmd = s.params.cmdToneSlide ∧ 13 ≤ note.toNat) := by
      rintro ⟨hcmd, hnote⟩
      exact hok.elim (by omega) (absurd hcmd)
    have hnone : operandErr s.params (.event ch oct note cmd param ins) = .none := by
      simp only [operandErr, channelErr, if_neg (show ¬9 ≤ ch.toNat by omega), if_neg hnoSlideFault]
    exact ⟨t, r, hexec, hresp, by rw [herr, answeredErr_exec, hnone]⟩

end Sys2Proof.Machine

/-! SUPPORT. The slide-to-note branch of EVENT (41_event.md rule R114). -/

namespace Sys2Proof.Machine

/-- A note's linear frequency lies inside the eight octaves (rules R6, R12). -/
theorem toLinear_note_bounds {P : Params} (hP : P.admissible = true) (oct : BitVec 3) (n : Fin 12) :
    0 ≤ toLinear P oct (P.noteFnum n) ∧ toLinear P oct (P.noteFnum n) < 8 * P.octaveSpan := by
  obtain ⟨hlo, hhi⟩ := noteFnum_bounds hP n
  have hmul : oct.toNat * P.octaveSpan ≤ 7 * P.octaveSpan := Nat.mul_le_mul_right _ (by omega)
  rw [toLinear, ← Int.natCast_mul]
  omega

theorem slideToNote_wrote (c : Chan) (oct : BitVec 3) (n : Fin 12) (param : Byte) (s : State) :
    Wrote s (slideToNote c oct n param s) [] :=
  setChan_wrote ..

theorem slideToNote_chan (c : Chan) (oct : BitVec 3) (n : Fin 12) (param : Byte) (s : State) (e : Chan) :
    (slideToNote c oct n param s).chan e = if e = c then { s.chan c with
      tstgt := i16 (toLinear s.params oct (s.params.noteFnum n))
      tsact := true
      tsstep := if param = 0 then (s.chan c).tsstep else param } else s.chan e := by
  simp only [slideToNote, Channel.armTone, State.setChan_chan, ne_eq, ite_not]

/-- Settles O31: the branch is one register update without a write, and the target fits its register. -/
theorem eventArmsTheToneSlide : Obligations.EventArmsTheToneSlide := by
  intro s ch c oct note n param ins hP hch hnote
  obtain ⟨hlo, hhi⟩ := toLinear_note_bounds hP oct n
  have hspan := base_span_le hP
  have htarget := i16_toInt (x := toLinear s.params oct (s.params.noteFnum n)) (by omega) (by omega)
  exact ⟨_, _, exec_event_slide hch oct hnote param ins s, htarget,
    (slideToNote_wrote c oct n param s).channel_ran (slideToNote_chan c oct n param s) .ok⟩

end Sys2Proof.Machine

/-! SUPPORT. The command ids as EVENT's dispatch compares them (00_scope.md rule R6(f), 41_event.md rules R116 to R124): one equation per
arm of the dispatch. -/

namespace Sys2Proof.Machine

/-- The ids the dispatch compares a command with, in its order (rules R117 to R122); the slide-to-note id is not among them. -/
def dispatchIds (P : Params) : List (BitVec 4) :=
  [P.cmdPortaUp, P.cmdPortaDn, P.cmdToneVol, P.cmdVolSlide, P.cmdSetVol, P.cmdJumpLine, P.cmdSetSpeed]

theorem cmdIds_perm (P : Params) : P.cmdIds.Perm (P.cmdToneSlide :: dispatchIds P) :=
  List.perm_middle (l₁ := [P.cmdPortaUp, P.cmdPortaDn])

theorem dispatchIds_nodup {P : Params} (hP : P.admissible = true) : (dispatchIds P).Nodup :=
  ((cmdIds_perm P).nodup_iff.mp (cmdIds_nodup hP)).of_cons

theorem toneSlide_not_dispatchId {P : Params} (hP : P.admissible = true) : P.cmdToneSlide ∉ dispatchIds P :=
  ((cmdIds_perm P).nodup_iff.mp (cmdIds_nodup hP)).notMem

/-- A command id that is none of these adds nothing to the event (rules R123, R124). -/
theorem dispatchCommand_other {cmd : BitVec 4} {t : State} (hcmd : cmd ∉ dispatchIds t.params) (c : Chan) (param : Byte) :
    dispatchCommand c cmd param t = finish .ok t := by
  simp only [dispatchIds, List.mem_cons, List.not_mem_nil, or_false, not_or] at hcmd
  simp only [dispatchCommand, hcmd, if_false]

section
variable {P : Params} {t : State} (hP : P.admissible = true) (ht : t.params = P) (c : Chan) (param : Byte)
include ht

theorem dispatchCommand_portaUp :
    dispatchCommand c P.cmdPortaUp param t = finish .ok (t.setChan c { t.chan c with porta := i16 param.toNat }) := by
  rw [dispatchCommand, ht, if_pos rfl]

include hP

theorem dispatchCommand_portaDn : dispatchCommand c P.cmdPortaDn param t =
    finish .ok (t.setChan c { t.chan c with porta := i16 (-(param.toNat : Int)) }) := by
  have hids := dispatchIds_nodup hP
  grind [dispatchIds, dispatchCommand]

theorem dispatchCommand_toneVol : dispatchCommand c P.cmdToneVol param t =
    finish .ok (t.setChan c { t.chan c with tsact := true, vsl := i16 (volDelta P param) }) := by
  have hids := dispatchIds_nodup hP
  grind [dispatchIds, dispatchCommand, Channel.armTone]

theorem dispatchCommand_volSlide : dispatchCommand c P.cmdVolSlide param t =
    finish .ok (t.setChan c { t.chan c with vsl := i16 (volDelta P param) }) := by
  have hids := dispatchIds_nodup hP
  grind [dispatchIds, dispatchCommand]

theorem dispatchCommand_setVol : dispatchCommand c P.cmdSetVol param t = finish .ok (setVol c param.toNat t) := by
  have hids := dispatchIds_nodup hP
  grind [dispatchIds, dispatchCommand]

theorem dispatchCommand_jumpLine : dispatchCommand c P.cmdJumpLine param t =
    finish { Response.ok with jump := BitVec.ofNat 9 (1 + param.toNat) } t := by
  have hids := dispatchIds_nodup hP
  grind [dispatchIds, dispatchCommand]

theorem dispatchCommand_setSpeed : dispatchCommand c P.cmdSetSpeed param t =
    finish { Response.ok with speedValid := true, speed := param } t := by
  have hids := dispatchIds_nodup hP
  grind [dispatchIds, dispatchCommand]

end

end Sys2Proof.Machine

/-! SUPPORT. EVENT with each of the dispatched commands, against the same event with no command (41_event.md rules R116 to R124). -/

namespace Sys2Proof.Machine

theorem noteHandled_wrote (c : Chan) (oct : BitVec 3) (note : BitVec 4) (ins : BitVec 5) (s : State) :
    ∃ ws, Wrote s (noteHandled c oct note ins s) ws := by
  unfold noteHandled
  split
  · exact ⟨_, triggerNote_wrote c oct note ins s⟩
  · exact ⟨_, Wrote.refl s⟩

@[simp] theorem noteHandled_params (c : Chan) (oct : BitVec 3) (note : BitVec 4) (ins : BitVec 5) (s : State) :
    (noteHandled c oct note ins s).params = s.params := by
  obtain ⟨ws, hw⟩ := noteHandled_wrote c oct note ins s
  exact hw.params

@[simp] theorem noteHandled_responses (c : Chan) (oct : BitVec 3) (note : BitVec 4) (ins : BitVec 5) (s : State) :
    (noteHandled c oct note ins s).responses = s.responses := by
  obtain ⟨ws, -, -, hresp, -⟩ := noteHandled_wrote c oct note ins s
  exact hresp

/-- Settles O33: with note 0 there is nothing to handle, and the command is none that the dispatch compares with. -/
theorem eventWithoutNoteOrEffectDoesNothing : Obligations.EventWithoutNoteOrEffectDoesNothing := by
  intro s ch oct cmd param ins hP hch hcmd
  obtain ⟨c, hc⟩ := exists_chan hch
  have hother : cmd ∉ dispatchIds s.params := by
    rcases hcmd with rfl | hcmd
    · exact toneSlide_not_dispatchId hP
    · exact fun hmem => hcmd ((cmdIds_perm s.params).mem_iff.mpr (.tail _ hmem))
  rw [exec_event_dispatch hc oct param ins fun ⟨h0, _⟩ => h0 rfl, noteHandled_zero, dispatchCommand_other hother]
  rfl

section
variable {s : State} (hP : s.params.admissible = true) {ch : BitVec 4} {c : Chan} (hch : ch.toNat = c.val) (oct : BitVec 3)
  (note : BitVec 4) (ins : BitVec 5)
include hP hch

/-- The event that the others are compared with: the note handled and a zero response. -/
theorem exec_event_noCommand :
    exec (.event ch oct note 0 0 ins) s = .next ((noteHandled c oct note ins s).respond .ok) := by
  have hslide : (0 : BitVec 4) ≠ s.params.cmdToneSlide := fun h => zero_not_cmdId hP (by simp [Params.cmdIds, ← h])
  rw [exec_event_dispatch hch oct 0 ins fun ⟨_, h⟩ => hslide h]
  exact dispatchCommand_zero (by rwa [noteHandled_params]) c 0

/-- A command that the dispatch knows never slides to the note (rules R6(f), R116). -/
theorem exec_event_dispatchId {cmd : BitVec 4} (param : BitVec 8) (hcmd : cmd ∈ dispatchIds s.params) :
    exec (.event ch oct note cmd param ins) s = dispatchCommand c cmd param (noteHandled c oct note ins s) :=
  exec_event_dispatch hch oct param ins fun ⟨_, h⟩ => toneSlide_not_dispatchId hP (h ▸ hcmd)

end

/-- Settles O34: both arms set `PORTA` alone, and the parameter fits it with either sign. -/
theorem eventArmsPortamento : Obligations.EventArmsPortamento := by
  intro s ch c oct note param ins hP hch
  have ht := noteHandled_params c oct note ins s
  have hup := exec_event_dispatchId hP hch oct note ins param (cmd := s.params.cmdPortaUp) (by simp [dispatchIds])
  have hdn := exec_event_dispatchId hP hch oct note ins param (cmd := s.params.cmdPortaDn) (by simp [dispatchIds])
  rw [dispatchCommand_portaUp ht] at hup
  rw [dispatchCommand_portaDn hP ht] at hdn
  exact ⟨_, _, _, exec_event_noCommand hP hch oct note ins, i16_toInt (by omega) (by omega), hup,
    i16_toInt (by omega) (by omega), hdn⟩

/-- The two ranges of the volume delta, as the register holds it (rules R15, R112). -/
theorem i16_volDelta_toInt (P : Params) (p : Byte) :
    (p.toNat < P.volSlideMid → (i16 (volDelta P p)).toInt = -(p.toNat : Int)) ∧
      (P.volSlideMid ≤ p.toNat → (i16 (volDelta P p)).toInt = (p.toNat : Int) - P.volSlideMid) := by
  constructor
  · intro h
    rw [volDelta, if_pos h, i16_toInt (by omega) (by omega)]
  · intro h
    rw [volDelta, if_neg (Nat.not_lt.mpr h), i16_toInt (by omega) (by omega)]

/-- Settles O35: the arm sets the flag and the delta alone. -/
theorem eventContinuesToneSlide : Obligations.EventContinuesToneSlide := by
  intro s ch c oct note param ins hP hch
  have hexec := exec_event_dispatchId hP hch oct note ins param (cmd := s.params.cmdToneVol) (by simp [dispatchIds])
  rw [dispatchCommand_toneVol hP (noteHandled_params c oct note ins s)] at hexec
  obtain ⟨hdown, hup⟩ := i16_volDelta_toInt s.params param
  exact ⟨_, _, exec_event_noCommand hP hch oct note ins, hdown, hup, hexec⟩

/-- Settles O36: the arm sets the delta alone. -/
theorem eventArmsVolumeSlide : Obligations.EventArmsVolumeSlide := by
  intro s ch c oct note param ins hP hch
  have hexec := exec_event_dispatchId hP hch oct note ins param (cmd := s.params.cmdVolSlide) (by simp [dispatchIds])
  rw [dispatchCommand_volSlide hP (noteHandled_params c oct note ins s)] at hexec
  obtain ⟨hdown, hup⟩ := i16_volDelta_toInt s.params param
  exact ⟨_, _, exec_event_noCommand hP hch oct note ins, hdown, hup, hexec⟩

/-- A state that answers `r` is the state that answers another response, with `r` in its place. -/
theorem respond_eq_answer {s t : State} (h : t.responses = s.responses) (r r' : Response) :
    t.respond r = { t.respond r' with responses := s.responses ++ [r] } := by
  rw [← h]
  rfl

/-- Settles O38: the arm changes the response alone, whose 9 bits hold `1 + param`. -/
theorem eventReportsTheJump : Obligations.EventReportsTheJump := by
  intro s ch oct note param ins hP hch
  obtain ⟨c, hc⟩ := exists_chan hch
  have hexec := exec_event_dispatchId hP hc oct note ins param (cmd := s.params.cmdJumpLine) (by simp [dispatchIds])
  rw [dispatchCommand_jumpLine hP (noteHandled_params c oct note ins s), finish,
    respond_eq_answer (noteHandled_responses c oct note ins s) _ .ok] at hexec
  have hjump : (BitVec.ofNat 9 (1 + param.toNat)).toNat = 1 + param.toNat := by
    rw [BitVec.toNat_ofNat, Nat.mod_eq_of_lt (by omega)]
  exact ⟨_, _, exec_event_noCommand hP hc oct note ins, hjump, hexec⟩

/-- Settles O39: the arm changes the response alone. -/
theorem eventReportsTheSpeed : Obligations.EventReportsTheSpeed := by
  intro s ch oct note param ins hP hch
  obtain ⟨c, hc⟩ := exists_chan hch
  have hexec := exec_event_dispatchId hP hc oct note ins param (cmd := s.params.cmdSetSpeed) (by simp [dispatchIds])
  rw [dispatchCommand_setSpeed hP (noteHandled_params c oct note ins s), finish,
    respond_eq_answer (noteHandled_responses c oct note ins s) _ .ok] at hexec
  exact ⟨_, exec_event_noCommand hP hc oct note ins, hexec⟩

end Sys2Proof.Machine

/-! SUPPORT. TICK over all the channels (42_effects.md rules R130 to R134). -/

namespace Sys2Proof.Machine

theorem exec_tick (s : State) : exec .tick s = .next ((allChannels.foldl tickChannel s).respond .ok) := rfl

/-- Settles O40: the loop over the channels is one channel's three effects each, a function of that channel's registers alone. -/
theorem tickActsChannelByChannel : Obligations.TickActsChannelByChannel := by
  intro s
  obtain ⟨hwrote, hchan⟩ := tick_wrote s
  exact ⟨_, exec_tick s, fun c => (State.respond_chan _ .ok c).trans (hchan c), hwrote.ran .ok⟩

end Sys2Proof.Machine

/-! SUPPORT. The faults (60_exceptions.md rules R151 to R155): a fault as the response it leaves, and which commands raise one before
they do anything. -/

namespace Sys2Proof.Machine

/-- A fault answers its code alone (rule R151). -/
theorem raise_eq_answered (e : Err) (s : State) :
    raise e s = .next (answered s { err := e, data := 0, jump := 0, speedValid := false, speed := 0 }) := rfl

/-- Every command with a channel field checks the channel before anything else (rule R153). -/
theorem exec_checks_channel {i : Instr} {ch : BitVec 4} (h : channelField i = some ch) (s : State) :
    ∃ k, exec i s = withChannel ch s k := by
  cases i with
  | silence | fxclr | tick => cases h
  | setnote | setlin | getlin | setvol | getvol | ldins | event =>
    cases h
    exact ⟨_, rfl⟩

/-- SETNOTE's note 0 is no note to set (rule R155). -/
theorem exec_setnote_zero {ch : BitVec 4} {c : Chan} (hch : ch.toNat = c.val) (oct : BitVec 3) (s : State) :
    exec (.setnote ch oct 0) s = raise .operand s :=
  (withChannel_eq hch s _).trans (if_pos rfl)

/-- LDINS's slot 31 names no slot of the bank (rule R155). -/
theorem exec_ldins_noSlot {ch : BitVec 4} {c : Chan} {ins : BitVec 5} (hch : ch.toNat = c.val) (hins : ins.toNat = 31)
    (s : State) : exec (.ldins ins ch) s = raise .operand s := by
  have h : exec (.ldins ins ch) s = _ := withChannel_eq hch s _
  rw [h, (slotOf_eq_none_iff ins).mpr hins]

/-- A command's end answers one response and keeps the reset input and the host's inputs; a response that carries a fault carries
nothing else, and is all that changed (rule R151). -/
theorem Ends.fault_traceless {s : State} {o : Host.Outcome State Fault Refusal} (h : Ends s o) :
    ∃ t r, o = .next t ∧ t.responses = s.responses ++ [r] ∧ t.rst = s.rst ∧ t.pending = s.pending ∧
      (r.err ≠ .none → r = Response.fault r.err ∧ t = answered s r) := by
  obtain ⟨e, -, rfl⟩ | ⟨t, ws, r, hr, hw, rfl⟩ := h
  · exact ⟨_, Response.fault e, rfl, rfl, rfl, rfl, fun _ => ⟨rfl, rfl⟩⟩
  · obtain ⟨-, -, hresp, -, -, hrst, hpend⟩ := hw.ran r
    exact ⟨_, r, rfl, hresp, hrst, hpend, fun hf => absurd hr hf⟩

/-- Settles O4: the decoder refuses the word, so the step is the fault. -/
theorem unassignedOpcodesRaiseIllegal : Obligations.UnassignedOpcodesRaiseIllegal := by
  intro s w rest hrst hp hop
  rw [step_command hrst hp, decode_unassigned hop]
  exact raise_eq_answered .illegal _

/-- Settles O7: the step ends like every command, and the kept reset input is what makes the block ready. -/
theorem faultsLeaveNoTrace : Obligations.FaultsLeaveNoTrace := by
  intro s w rest hrst hp
  obtain ⟨hends, -⟩ := step_command_classified hrst hp
  obtain ⟨t, r, hstep, hresp, hkept, hpend, hfault⟩ := hends.fault_traceless
  have hready : t.cmdReady = true := by simp [State.cmdReady, hkept, hrst]
  exact ⟨t, r, hstep, hresp, hready, hpend, hfault⟩

/-- Settles O9: no command with a channel field gets past the channel check. -/
theorem absentChannelsRaiseChannel : Obligations.AbsentChannelsRaiseChannel := by
  intro s i ch hfield habs
  obtain ⟨k, hexec⟩ := exec_checks_channel hfield s
  rw [hexec, withChannel_absent habs, raise_eq_answered]

/-- Settles O10: past the channel check both commands refuse the empty operand. -/
theorem emptyOperandsRaiseOperand : Obligations.EmptyOperandsRaiseOperand := by
  intro s ch hch
  obtain ⟨c, hc⟩ := exists_chan hch
  rw [← raise_eq_answered]
  exact ⟨fun oct => exec_setnote_zero hc oct s, exec_ldins_noSlot hc rfl s⟩

end Sys2Proof.Machine

/-! SUPPORT. What a step does to a block in reset (70_reset_and_hazards.md rules R170, R171). -/

namespace Sys2Proof.Machine

theorem State.held_of_high {s : State} (hrst : s.rst = true) : s.held = s.applyReset := by
  simp [State.held, hrst]

/-- A step that raises `rst`, or starts with `rst` 1, resets the block; beyond that it can move only the host's own inputs, and the bank
among them only by a byte the host puts there. -/
theorem step_of_reset {s : State} (h : (∃ rest, s.pending = .rst true :: rest) ∨ s.rst = true) :
    ∃ bank rst pending, step s = .next { s.applyReset with bank := bank, rst := rst, pending := pending } ∧
      ((∀ k i b rest, s.pending ≠ .bankByte k i b :: rest) → bank = s.bank) := by
  obtain ⟨rest, hp⟩ | hr := h
  · exact ⟨_, _, _, step_rst_high hp, fun _ => rfl⟩
  · match hp : s.pending with
    | [] => exact ⟨_, _, _, step_idle_reset hr hp, fun _ => rfl⟩
    | .command _ :: _ => exact ⟨_, _, _, step_command_reset hr hp, fun _ => rfl⟩
    | .rst true :: _ => exact ⟨_, _, _, step_rst_high hp, fun _ => rfl⟩
    | .rst false :: _ =>
      have hstep := step_rst_low hp
      rw [State.held_of_high hr] at hstep
      exact ⟨_, _, _, hstep, fun _ => rfl⟩
    | .bankByte k i b :: rest =>
      have hstep := step_bankByte hp
      rw [State.held_of_high hr] at hstep
      exact ⟨_, _, _, hstep, fun hno => absurd rfl (hno k i b rest)⟩

/-- Settles O15: the step ends in the reset block but for the host's own inputs, and there every channel is `Channel.reset`. -/
theorem resetValuesAreHeld : Obligations.ResetValuesAreHeld := by
  intro s h
  obtain ⟨bank, rst, pending, hstep, hbank⟩ := step_of_reset h
  refine ⟨_, hstep, rfl, hbank, fun c => ?_⟩
  have hc : State.chan { s.applyReset with bank := bank, rst := rst, pending := pending } c = Channel.reset :=
    s.applyReset_chan c
  rw [hc]
  decide

end Sys2Proof.Machine

/-! SUPPORT. Every command is a run of a few operations, each on one channel, and then one response. What the operations keep, every
step keeps (10_state.md rules R20 and R22, 20_memory.md rule R41). -/

namespace Sys2Proof.Machine

/-- An update of the effect registers: it touches no shadow and stores legal values (rules R11, R12, R15). -/
def SetsEffects (P : Params) (r u : Channel) : Prop :=
  u.flo = r.flo ∧ u.fhi = r.fhi ∧ u.vol = r.vol ∧ (P.admissible = true → r.Legal P → u.Legal P)

/-- The operations that commands are made of, on channel `c`. -/
inductive ChanOp (c : Chan) : State → State → Prop where
  | noteOn (oct : BitVec 3) (n : Fin 12) (s : State) : ChanOp c s (noteOn c oct n s)
  | keyOff (s : State) : ChanOp c s (keyOff c s)
  | setLin (lin : Int) (s : State) : ChanOp c s (setLin c lin s)
  | setVol (level : Nat) (s : State) : ChanOp c s (setVol c level s)
  | loadIns (idx : Slot) (s : State) : ChanOp c s (loadIns idx c s)
  | effects {s : State} {r : Channel} (h : SetsEffects s.params (s.chan c) r) : ChanOp c s (s.setChan c r)

/-- A run of operations on the channels of `cs`. -/
abbrev OpsOn (cs : Chan → Prop) : State → State → Prop := Relation.ReflTransGen fun s t => ∃ c, cs c ∧ ChanOp c s t

/-- The command runs operations on the channels of `cs` and answers one response. -/
def Does (cs : Chan → Prop) (s : State) (o : Host.Outcome State Fault Refusal) : Prop :=
  ∃ u r, OpsOn cs s u ∧ o = .next (u.respond r)

theorem ChanOp.opsOn {c : Chan} {s t : State} (h : ChanOp c s t) : OpsOn (· = c) s t := .single ⟨c, rfl, h⟩

theorem OpsOn.does {cs : Chan → Prop} {s u : State} (h : OpsOn cs s u) (r : Response) : Does cs s (finish r u) := ⟨u, r, h, rfl⟩

theorem raise_does (cs : Chan → Prop) (e : Err) (s : State) : Does cs s (raise e s) := ⟨s, Response.fault e, .refl, rfl⟩

theorem OpsOn.mono {cs ds : Chan → Prop} {s t : State} (h : OpsOn cs s t) (hsub : ∀ c, cs c → ds c) : OpsOn ds s t :=
  Relation.ReflTransGen.mono (fun _ _ ⟨c, hc, hop⟩ => ⟨c, hsub c hc, hop⟩) _ _ h

theorem foldl_opsOn {f : State → Chan → State} (h : ∀ s c, OpsOn (· = c) s (f s c)) (cs : List Chan) (s : State) :
    OpsOn (fun _ => True) s (cs.foldl f s) := by
  induction cs generalizing s with
  | nil => exact .refl
  | cons c cs ih => exact ((h s c).mono fun _ _ => trivial).trans (ih (f s c))

theorem setsEffects_porta {P : Params} (r : Channel) {x : I16} (h : -255 ≤ x.toInt ∧ x.toInt ≤ 255) :
    SetsEffects P r { r with porta := x } :=
  ⟨rfl, rfl, rfl, fun _ ⟨hfhi, _, htgt, hvsl⟩ => ⟨hfhi, h, htgt, hvsl⟩⟩

theorem setsEffects_tone {P : Params} (r : Channel) (b : Bool) : SetsEffects P r { r with tsact := b } :=
  ⟨rfl, rfl, rfl, fun _ hr => hr⟩

/-- Both commands that set the volume delta store one inside the range of rule R15, whatever they do to the tone slide's flag. -/
theorem setsEffects_volDelta {P : Params} (r : Channel) (b : Bool) (param : Byte) :
    SetsEffects P r { r with tsact := b, vsl := i16 (volDelta P param) } := by
  refine ⟨rfl, rfl, rfl, fun hP ⟨hfhi, hporta, htgt, _⟩ => ⟨hfhi, hporta, htgt, ?_⟩⟩
  obtain ⟨hdown, hup⟩ := i16_volDelta_toInt P param
  have hmid := mid_bounds hP
  rcases Nat.lt_or_ge param.toNat P.volSlideMid with h | h
  · have := hdown h
    dsimp only
    omega
  · have := hup h
    dsimp only
    omega

theorem setsEffects_disarmAll {P : Params} (r : Channel) : SetsEffects P r r.disarmAll := by
  refine ⟨rfl, rfl, rfl, fun hP ⟨hfhi, _, htgt, _⟩ => ⟨hfhi, by simp [Channel.disarmAll], htgt, ?_⟩⟩
  have hmid := mid_bounds hP
  have hvsl : r.disarmAll.vsl.toInt = 0 := rfl
  omega

theorem setsEffects_target {P : Params} (r : Channel) (oct : BitVec 3) (n : Fin 12) (step : Byte) :
    SetsEffects P r { r with tsact := true, tstgt := i16 (toLinear P oct (P.noteFnum n)), tsstep := step } := by
  refine ⟨rfl, rfl, rfl, fun hP ⟨hfhi, hporta, _, hvsl⟩ => ⟨hfhi, hporta, ?_, hvsl⟩⟩
  obtain ⟨hlo, hhi⟩ := toLinear_note_bounds hP oct n
  have hspan := base_span_le hP
  rw [i16_toInt (by omega) (by omega)]
  exact ⟨hlo, hhi⟩

theorem setNote_opsOn (c : Chan) (oct : BitVec 3) (note : BitVec 4) (s : State) : OpsOn (· = c) s (setNote c oct note s) := by
  unfold setNote
  split
  · exact (ChanOp.noteOn ..).opsOn
  · exact (ChanOp.keyOff s).opsOn

theorem triggerNote_opsOn (c : Chan) (oct : BitVec 3) (note : BitVec 4) (ins : BitVec 5) (s : State) :
    OpsOn (· = c) s (triggerNote c oct note ins s) := by
  refine (ChanOp.keyOff s).opsOn.trans (.trans ?_ (setNote_opsOn c oct note (loadedState c ins s)))
  unfold loadedState
  split
  · exact (ChanOp.loadIns ..).opsOn
  · exact .refl

theorem dispatchCommand_does (c : Chan) (cmd : BitVec 4) (param : Byte) {s u : State} (h : OpsOn (· = c) s u) :
    Does (· = c) s (dispatchCommand c cmd param u) := by
  have hset {r : Channel} (he : SetsEffects u.params (u.chan c) r) : Does (· = c) s (finish .ok (u.setChan c r)) :=
    OpsOn.does (h.trans (ChanOp.effects he).opsOn) .ok
  have hup : (i16 param.toNat).toInt = param.toNat := i16_toInt (by omega) (by omega)
  have hdn : (i16 (-(param.toNat : Int))).toInt = -param.toNat := i16_toInt (by omega) (by omega)
  unfold dispatchCommand
  split_ifs
  · exact hset (setsEffects_porta _ (by omega))
  · exact hset (setsEffects_porta _ (by omega))
  · exact hset (setsEffects_volDelta _ true param)
  · exact hset (setsEffects_volDelta _ _ param)
  · exact OpsOn.does (h.trans (ChanOp.setVol ..).opsOn) .ok
  · exact OpsOn.does h _
  · exact OpsOn.does h _
  · exact OpsOn.does h _

theorem toneSlide_opsOn (c : Chan) (s : State) : OpsOn (· = c) s (toneSlide c s) := by
  have hdisarm : OpsOn (· = c) s (disarmTone c s) := (ChanOp.effects (setsEffects_tone _ false)).opsOn
  have hmove (lin : Int) : OpsOn (· = c) s (setLin c lin s) := (ChanOp.setLin lin s).opsOn
  have harrive (lin : Int) : OpsOn (· = c) s (setLin c lin (disarmTone c s)) := hdisarm.trans (ChanOp.setLin ..).opsOn
  simp only [toneSlide]
  split_ifs
  · exact hdisarm
  · exact harrive _
  · exact hmove _
  · exact harrive _
  · exact hmove _
  · exact .refl

theorem tickChannel_opsOn (s : State) (c : Chan) : OpsOn (· = c) s (tickChannel s c) := by
  have hporta : OpsOn (· = c) s (portamento c s) := by
    unfold portamento
    split
    · exact (ChanOp.setLin ..).opsOn
    · exact .refl
  refine hporta.trans ((toneSlide_opsOn c _).trans ?_)
  unfold tickChannel volumeSlide
  split
  · exact (ChanOp.setVol ..).opsOn
  · exact .refl

/-- The channels a command may act on: its channel field's, or all (rule R22). -/
def actsOn (i : Instr) (c : Chan) : Prop := ∀ ch, channelField i = some ch → ch.toNat = c.val

theorem withChannel_does {i : Instr} {ch : BitVec 4} (hi : channelField i = some ch) {s : State}
    {k : Chan → Host.Outcome State Fault Refusal} (h : ∀ c, Does (· = c) s (k c)) :
    Does (actsOn i) s (withChannel ch s k) := by
  unfold withChannel
  split
  · next c hc =>
    obtain ⟨u, r, hops, hk⟩ := h c
    refine ⟨u, r, hops.mono ?_, hk⟩
    rintro _ rfl ch' hch'
    obtain rfl := Option.some.inj (hi.symm.trans hch')
    exact channelOf_some hc
  · exact raise_does _ _ _

theorem foldl_does {i : Instr} (hi : channelField i = none) {f : State → Chan → State} (h : ∀ s c, OpsOn (· = c) s (f s c))
    (s : State) : Does (actsOn i) s (finish .ok (allChannels.foldl f s)) :=
  OpsOn.does ((foldl_opsOn h allChannels s).mono fun _ _ _ hch => by simp [hi] at hch) .ok

/-- Every command is a run of operations on the channels it may act on, and one response. -/
theorem exec_does (i : Instr) (s : State) : Does (actsOn i) s (exec i s) := by
  cases i with
  | setnote ch oct note =>
    refine withChannel_does rfl fun c => ?_
    split
    · exact raise_does _ _ _
    · exact OpsOn.does (setNote_opsOn c oct note s) .ok
  | setlin ch lin => exact withChannel_does rfl fun c => OpsOn.does (ChanOp.setLin lin.toInt s).opsOn .ok
  | getlin ch => exact withChannel_does rfl fun c => OpsOn.does .refl _
  | setvol ch level => exact withChannel_does rfl fun c => OpsOn.does (ChanOp.setVol level.toNat s).opsOn .ok
  | getvol ch => exact withChannel_does rfl fun c => OpsOn.does .refl _
  | ldins ins ch =>
    refine withChannel_does rfl fun c => ?_
    split
    · exact OpsOn.does (ChanOp.loadIns _ s).opsOn .ok
    · exact raise_does _ _ _
  | silence => exact foldl_does rfl (fun s c => (ChanOp.keyOff s).opsOn) s
  | fxclr => exact foldl_does rfl (fun s c => (ChanOp.effects (setsEffects_disarmAll _)).opsOn) s
  | event ch oct note cmd param ins =>
    refine withChannel_does rfl fun c => ?_
    split
    · split
      · exact OpsOn.does (ChanOp.effects (setsEffects_target ..)).opsOn .ok
      · exact raise_does _ _ _
    · refine dispatchCommand_does c cmd param ?_
      split
      · exact triggerNote_opsOn c oct note ins s
      · exact .refl
  | tick => exact foldl_does rfl tickChannel_opsOn s

/-- What every operation, every response and every turn at the ports keeps. -/
structure StepInvariant (I : State → Prop) : Prop where
  op : ∀ {c s t}, ChanOp c s t → I s → I t
  respond : ∀ s r, I s → I (s.respond r)
  inputs : ∀ s rst pending, I s → I { s with rst := rst, pending := pending }
  reset : ∀ s, I s → I s.applyReset
  bankByte : ∀ s k i b, I s → I (s.loadBankByte k i b)

theorem StepInvariant.opsOn {I : State → Prop} (hI : StepInvariant I) {cs : Chan → Prop} {s t : State} (h : OpsOn cs s t)
    (hs : I s) : I t := by
  induction h with
  | refl => exact hs
  | tail _ hop ih =>
    obtain ⟨c, -, hop⟩ := hop
    exact hI.op hop ih

theorem StepInvariant.exec {I : State → Prop} (hI : StepInvariant I) {i : Instr} {s t : State} (hs : I s)
    (h : exec i s = .next t) : I t := by
  obtain ⟨u, r, hops, hu⟩ := exec_does i s
  cases hu.symm.trans h
  exact hI.respond u r (hI.opsOn hops hs)

/-- Every step keeps an invariant of the operations. -/
theorem StepInvariant.step {I : State → Prop} (hI : StepInvariant I) {s t : State} (hs : I s) (h : step s = .next t) : I t := by
  have hheld : I s.held := by
    unfold State.held
    split
    · exact hI.reset s hs
    · exact hs
  obtain ⟨-, -, hst⟩ | ⟨-, -, hst⟩ | ⟨w, rest, i, -, -, -, hst⟩ | ⟨w, rest, e, -, -, -, hst⟩ | ⟨k, i, b, rest, -, hst⟩ |
    ⟨rest, -, hst⟩ | ⟨rest, -, hst⟩ := step_cases s
  · cases hst.symm.trans h
    exact hs
  · cases hst.symm.trans h
    exact hI.reset s hs
  · exact hI.exec (hI.inputs s s.rst rest hs) (hst.symm.trans h)
  · cases hst.symm.trans h
    exact hI.respond _ _ (hI.inputs s s.rst rest hs)
  · cases hst.symm.trans h
    exact hI.inputs _ s.held.rst rest (hI.bankByte _ k i b hheld)
  · cases hst.symm.trans h
    exact hI.inputs _ true rest (hI.reset s hs)
  · cases hst.symm.trans h
    exact hI.inputs _ false rest hheld

end Sys2Proof.Machine

/-! SUPPORT. The writes of an operation as chip registers, and the shadow invariant (10_state.md rule R20). -/

namespace Sys2Proof.Machine

/-- The channel of a chip register. -/
def ChipReg.chan : ChipReg → Chan
  | .flo c => c
  | .fhi c => c
  | .ins _ c => c

/-- The byte an operation leaves in a chip register of its channel, whose registers are `r` after it: the shadow, where there is one,
and else the instrument byte. -/
def regByte (P : Params) (r : Channel) (ins : Offset → Byte) : ChipReg → Byte
  | .flo _ => r.flo
  | .fhi _ => r.fhi
  | .ins i _ => if i = P.carrierIdx then r.vol else ins i

/-- What the shadow of a chip register says is in it (rules R17 to R19); most instrument registers have none. -/
def shadowOf (P : Params) (r : Channel) : ChipReg → Option Byte
  | .flo _ => some r.flo
  | .fhi _ => some r.fhi
  | .ins i _ => if i = P.carrierIdx then some r.vol else none

theorem regByte_of_shadow {P : Params} {r : Channel} {reg : ChipReg} {x : Byte} (h : shadowOf P r reg = some x)
    (ins : Offset → Byte) : regByte P r ins reg = x := by
  cases reg with
  | flo | fhi => exact Option.some.inj h
  | ins i c =>
    simp only [shadowOf, Option.ite_none_right_eq_some, Option.some.injEq] at h
    obtain ⟨hi, hx⟩ := h
    simp only [regByte, if_pos hi, hx]

/-- From `s` to `t` an operation wrote the registers `regs` of channel `c` and changed no other channel; every shadow it changed is
among the registers written. -/
def WroteRegs (c : Chan) (regs : List ChipReg) (ins : Offset → Byte) (s t : State) : Prop :=
  Wrote s t (regs.map fun reg => (s.params.addr reg, regByte s.params (t.chan c) ins reg)) ∧
    OtherChannelsKept c s t ∧ (∀ reg ∈ regs, ChipReg.chan reg = c) ∧
    ∀ reg, ChipReg.chan reg = c → reg ∉ regs → shadowOf s.params (t.chan c) reg = shadowOf s.params (s.chan c) reg

theorem writeFrequency_wroteRegs (c : Chan) (lo hi : Byte) (s : State) (ins : Offset → Byte) :
    WroteRegs c [.flo c, .fhi c] ins s (writeFrequency c lo hi s) := by
  have hc := writeFrequency_chan c lo hi s
  refine ⟨?_, fun e he => (hc e).trans (if_neg he), by simp [ChipReg.chan], fun reg hreg hno => ?_⟩
  · simpa [regByte, hc, Params.addr] using writeFrequency_wrote c lo hi s
  · cases reg <;> simp_all [ChipReg.chan, shadowOf]

theorem keyOff_wroteRegs (c : Chan) (s : State) (ins : Offset → Byte) : WroteRegs c [.fhi c] ins s (keyOff c s) := by
  have hc := keyOff_chan c s
  refine ⟨?_, fun e he => (hc e).trans (if_neg he), by simp [ChipReg.chan], fun reg hreg hno => ?_⟩
  · simpa [regByte, hc, Params.addr] using keyOff_wrote c s
  · cases reg <;> simp_all [ChipReg.chan, shadowOf]

theorem setVol_wroteRegs {s : State} (hP : s.params.admissible = true) (c : Chan) (level : Nat) (ins : Offset → Byte) :
    WroteRegs c [.ins s.params.carrierIdx c] ins s (setVol c level s) := by
  have hc := setVol_chan c level s
  refine ⟨?_, fun e he => (hc e).trans (if_neg he), by simp [ChipReg.chan], fun reg hreg hno => ?_⟩
  · simpa [regByte, hc, Params.addr, volAddr_eq hP] using setVol_wrote c level s
  · cases reg <;> simp_all [ChipReg.chan, shadowOf]

theorem loadIns_wroteRegs (c : Chan) (idx : Slot) (s : State) :
    WroteRegs c (allOffsets.map fun i => .ins i c) (s.insRead idx) s (loadIns idx c s) := by
  have hc := loadIns_chan idx c s
  have hbyte (i : Offset) : (if i = s.params.carrierIdx then s.insRead idx s.params.carrierIdx else s.insRead idx i)
      = s.insRead idx i := by
    split
    · next h => rw [h]
    · rfl
  refine ⟨?_, fun e he => (hc e).trans (if_neg he), by simp [ChipReg.chan], fun reg hreg hno => ?_⟩
  · simpa [Function.comp_def, regByte, hc, Params.addr, hbyte, insWrites] using loadIns_wrote idx c s
  · cases reg <;> simp_all [ChipReg.chan, shadowOf]

theorem setChan_wroteRegs {s : State} {c : Chan} {r : Channel} (h : SetsEffects s.params (s.chan c) r) (ins : Offset → Byte) :
    WroteRegs c [] ins s (s.setChan c r) := by
  obtain ⟨hflo, hfhi, hvol, -⟩ := h
  exact ⟨setChan_wrote s c r, fun e he => State.setChan_chan_ne s r he, by simp, fun reg _ _ => by
    cases reg <;> simp only [shadowOf, State.setChan_chan_self, hflo, hfhi, hvol]⟩

/-- Every operation writes some registers of its channel, and with them every shadow it changes. -/
theorem ChanOp.wroteRegs {c : Chan} {s t : State} (hP : s.params.admissible = true) (h : ChanOp c s t) :
    ∃ regs ins, WroteRegs c regs ins s t := by
  cases h with
  | noteOn oct n => exact ⟨_, default, writeFrequency_wroteRegs ..⟩
  | keyOff => exact ⟨_, default, keyOff_wroteRegs ..⟩
  | setLin lin => exact ⟨_, default, writeFrequency_wroteRegs ..⟩
  | setVol level => exact ⟨_, default, setVol_wroteRegs hP ..⟩
  | loadIns idx => exact ⟨_, _, loadIns_wroteRegs ..⟩
  | effects he => exact ⟨_, default, setChan_wroteRegs he default⟩

theorem ChanOp.wrote {c : Chan} {s t : State} (h : ChanOp c s t) : ∃ ws, Wrote s t ws := by
  cases h with
  | noteOn oct n => exact ⟨_, noteOn_wrote ..⟩
  | keyOff => exact ⟨_, keyOff_wrote ..⟩
  | setLin lin => exact ⟨_, setLin_wrote ..⟩
  | setVol level => exact ⟨_, setVol_wrote ..⟩
  | loadIns idx => exact ⟨_, loadIns_wrote ..⟩
  | effects he => exact ⟨_, setChan_wrote ..⟩

theorem ChanOp.params {c : Chan} {s t : State} (h : ChanOp c s t) : t.params = s.params := by
  obtain ⟨ws, hw⟩ := h.wrote
  exact hw.params

/-- The addresses of the map are distinct, so a list of register writes is read register by register (rule R6(c)). -/
theorem lastWrite_map_addr {P : Params} (hP : P.admissible = true) (v : ChipReg → Byte) (regs : List ChipReg) (reg : ChipReg) :
    lastWrite (regs.map fun g => (P.addr g, v g)) (P.addr reg) = if reg ∈ regs then some (v reg) else none := by
  induction regs using List.reverseRecOn with
  | nil => rfl
  | append_singleton regs g ih =>
    have hg : P.addr g = P.addr reg ↔ g = reg := ⟨addr_injective hP, fun h => h ▸ rfl⟩
    rw [List.map_append, List.map_singleton, lastWrite_concat, ih]
    simp only [hg, List.mem_append, List.mem_singleton]
    by_cases h : g = reg
    · simp [h]
    · simp [h, Ne.symm h]

/-- The shadow invariant, register by register. -/
theorem shadowInv_iff {s : State} (hP : s.params.admissible = true) : s.ShadowInv ↔
    ∀ reg x, shadowOf s.params (s.chan (ChipReg.chan reg)) reg = some x → ∀ b, s.chipByte (s.params.addr reg) = some b → b = x := by
  constructor
  · intro h reg x hx b hb
    obtain ⟨hflo, hfhi, hvol⟩ := h (ChipReg.chan reg)
    cases reg with
    | flo c => exact Option.some.inj hx ▸ hflo b hb
    | fhi c => exact Option.some.inj hx ▸ hfhi b hb
    | ins i c =>
      simp only [shadowOf, Option.ite_none_right_eq_some, Option.some.injEq] at hx
      obtain ⟨rfl, rfl⟩ := hx
      exact hvol b (by rw [volAddr_eq hP]; exact hb)
  · intro h c
    refine ⟨h (.flo c) _ rfl, h (.fhi c) _ rfl, ?_⟩
    rw [volAddr_eq hP]
    exact h (.ins s.params.carrierIdx c) _ (if_pos rfl)

theorem WroteRegs.shadowInv {c : Chan} {regs : List ChipReg} {ins : Offset → Byte} {s t : State}
    (hP : s.params.admissible = true) (h : WroteRegs c regs ins s t) (hs : s.ShadowInv) : t.ShadowInv := by
  obtain ⟨hw, hothers, hregs, hkept⟩ := h
  have hparams := hw.params
  obtain ⟨-, hchip, -⟩ := hw
  rw [shadowInv_iff hP] at hs
  rw [shadowInv_iff (hparams ▸ hP), hparams]
  intro reg x hx b hb
  rw [hchip, lastWrite_map_addr hP] at hb
  by_cases hreg : reg ∈ regs
  · rw [hregs reg hreg] at hx
    rw [if_pos hreg, Option.some_or, regByte_of_shadow hx] at hb
    exact (Option.some.inj hb).symm
  · rw [if_neg hreg, Option.none_or] at hb
    by_cases hc : ChipReg.chan reg = c
    · rw [hc, hkept reg hc hreg, ← hc] at hx
      exact hs reg x hx b hb
    · rw [hothers _ hc] at hx
      exact hs reg x hx b hb

theorem shadowInv_stepInvariant : StepInvariant fun s => s.params.admissible = true ∧ s.ShadowInv where
  op := fun hop ⟨hP, hs⟩ => by
    obtain ⟨regs, ins, hregs⟩ := hop.wroteRegs hP
    exact ⟨hop.params ▸ hP, hregs.shadowInv hP hs⟩
  respond := fun _ _ h => h
  inputs := fun _ _ _ h => h
  reset := fun s ⟨hP, _⟩ => ⟨hP, fun c => by simp⟩
  bankByte := fun _ _ _ _ h => h

/-- Settles O54: every operation writes the shadows it changes to their registers, and no register has two shadows. -/
theorem everyStepKeepsTheShadowInvariant : Obligations.EveryStepKeepsTheShadowInvariant := fun _ _ hP hs hstep =>
  (shadowInv_stepInvariant.step ⟨hP, hs⟩ hstep).2

end Sys2Proof.Machine

/-! SUPPORT. The legal register values, the canonical memories and the chip image as invariants of the operations (10_state.md rules R11
to R18, 20_memory.md rules R40, R41). -/

namespace Sys2Proof.Machine

theorem fhi_setLin_lt (fhi : Byte) (oct : BitVec 3) (f : BitVec 10) : ((fhi &&& 0x20) ||| pitchHigh oct f).toNat < 64 := by
  have h := pitchHigh_lt oct f
  rw [pitchHigh_toNat] at h
  rw [fhi_setLin_toNat]
  omega

theorem fhi_noteOn_lt (oct : BitVec 3) (f : BitVec 10) : (0x20 ||| pitchHigh oct f).toNat < 64 := by
  have h := pitchHigh_lt oct f
  rw [or_low_bits _ h]
  omega

theorem fhiKeyedOff_lt (fhi : Byte) : (fhiKeyedOff fhi).toNat < 64 := by
  rw [fhiKeyedOff_toNat]
  omega

/-- An operation that leaves the registers `r` on its channel keeps the registers legal if `r` is. -/
theorem regsLegal_of_chan {c : Chan} {s t : State} {r : Channel} (hparams : t.params = s.params)
    (hc : ∀ e, t.chan e = if e = c then r else s.chan e) (hs : s.RegsLegal) (hr : (s.chan c).Legal s.params → r.Legal s.params) :
    t.RegsLegal := by
  intro e
  rw [hparams, hc]
  split
  · exact hr (hs c)
  · exact hs e

theorem ChanOp.regsLegal {c : Chan} {s t : State} (hP : s.params.admissible = true) (h : ChanOp c s t) (hs : s.RegsLegal) :
    t.RegsLegal := by
  have hparams := h.params
  cases h with
  | noteOn oct n => exact regsLegal_of_chan hparams (noteOn_chan c oct n s) hs fun ⟨_, h⟩ => ⟨fhi_noteOn_lt _ _, h⟩
  | keyOff => exact regsLegal_of_chan hparams (keyOff_chan c s) hs fun ⟨_, h⟩ => ⟨fhiKeyedOff_lt _, h⟩
  | setLin lin => exact regsLegal_of_chan hparams (setLin_chan c lin s) hs fun ⟨_, h⟩ => ⟨fhi_setLin_lt _ _ _, h⟩
  | setVol level => exact regsLegal_of_chan hparams (setVol_chan c level s) hs id
  | loadIns idx => exact regsLegal_of_chan hparams (loadIns_chan idx c s) hs id
  | @effects _ r he =>
    obtain ⟨-, -, -, hlegal⟩ := he
    exact regsLegal_of_chan hparams (State.setChan_chan s c · r) hs (hlegal hP)

/-- The registers at reset are legal for every admissible record (rule R171). -/
theorem reset_legal {P : Params} (hP : P.admissible = true) : Channel.reset.Legal P := by
  have hspan := span_pos hP
  have hmid := mid_bounds hP
  have h0 : (0 : I16).toInt = 0 := rfl
  refine ⟨by decide, by decide, ?_, ?_⟩
  · simp only [Channel.reset, h0]
    omega
  · simp only [Channel.reset, h0]
    omega

theorem regsLegal_stepInvariant : StepInvariant fun s => s.params.admissible = true ∧ s.RegsLegal where
  op := fun hop ⟨hP, hs⟩ => ⟨hop.params ▸ hP, hop.regsLegal hP hs⟩
  respond := fun _ _ h => h
  inputs := fun _ _ _ h => h
  reset := fun s ⟨hP, _⟩ => ⟨hP, fun c => by
    rw [State.applyReset_chan]
    exact reset_legal hP⟩
  bankByte := fun _ _ _ _ h => h

/-- Settles O55: every operation stores legal values. -/
theorem everyStepKeepsRegistersLegal : Obligations.EveryStepKeepsRegistersLegal := fun _ _ hP hs hstep =>
  (regsLegal_stepInvariant.step ⟨hP, hs⟩ hstep).2

theorem chipWrite_memInv {s : State} (hs : s.MemInv) (a d : Byte) : (s.chipWrite a d).MemInv := by
  obtain ⟨hchip, hbank⟩ := hs
  exact ⟨Mem.wf_write d a.isLt hchip, hbank⟩

theorem setChan_memInv {s : State} (hs : s.MemInv) (c : Chan) (r : Channel) : (s.setChan c r).MemInv := hs

theorem writeFrequency_memInv {s : State} (hs : s.MemInv) (c : Chan) (lo hi : Byte) : (writeFrequency c lo hi s).MemInv := by
  unfold writeFrequency
  exact chipWrite_memInv (chipWrite_memInv (setChan_memInv hs c _) _ _) _ _

theorem writeInsBytes_memInv (idx : Slot) (c : Chan) (is : List Offset) {s : State} (hs : s.MemInv) :
    (is.foldl (writeInsByte idx c) s).MemInv := by
  induction is generalizing s with
  | nil => exact hs
  | cons i is ih => exact ih (chipWrite_memInv hs _ _)

theorem loadIns_memInv {s : State} (hs : s.MemInv) (idx : Slot) (c : Chan) : (loadIns idx c s).MemInv := by
  unfold loadIns
  exact setChan_memInv (writeInsBytes_memInv idx c allOffsets hs) c _

theorem ChanOp.memInv {c : Chan} {s t : State} (h : ChanOp c s t) (hs : s.MemInv) : t.MemInv := by
  cases h with
  | noteOn oct n => exact writeFrequency_memInv hs ..
  | keyOff => exact chipWrite_memInv (setChan_memInv hs c _) _ _
  | setLin lin => exact writeFrequency_memInv hs ..
  | setVol level => exact chipWrite_memInv (setChan_memInv hs c _) _ _
  | loadIns idx => exact loadIns_memInv hs ..
  | effects he => exact setChan_memInv hs ..

theorem memInv_stepInvariant : StepInvariant State.MemInv where
  op := ChanOp.memInv
  respond := fun _ _ h => h
  inputs := fun _ _ _ h => h
  reset := fun _ ⟨_, hbank⟩ => ⟨rfl, hbank⟩
  bankByte := fun _ k i b ⟨hchip, hbank⟩ => ⟨hchip, Mem.wf_write b (bankAddr_lt k i) hbank⟩

/-- Settles O56: an operation reaches the chip image by `chipWrite` alone, and the bank not at all. -/
theorem everyStepKeepsMemoriesCanonical : Obligations.EveryStepKeepsMemoriesCanonical := fun _ _ => memInv_stepInvariant.step

theorem imageInv_stepInvariant : StepInvariant State.ImageInv where
  op := fun hop hs a => by
    obtain ⟨ws, htrace, hchip, -⟩ := hop.wrote
    rw [hchip, htrace, lastWrite_append, hs a]
  respond := fun _ _ h => h
  inputs := fun _ _ _ h => h
  reset := fun _ _ _ => rfl
  bankByte := fun _ _ _ _ h => h

/-- Settles O57: an operation's writes are appended to the trace and set the image in the same order. -/
theorem everyStepKeepsTheImage : Obligations.EveryStepKeepsTheImage := fun _ _ => imageInv_stepInvariant.step

/-- Settles O18: nothing is written yet, and every register is at its reset value. -/
theorem resetStateMeetsTheInvariants : Obligations.ResetStateMeetsTheInvariants := by
  intro P bank hP hbank
  refine ⟨fun c => ⟨?_, ?_, ?_⟩, fun c => ?_, ⟨rfl, hbank⟩, fun _ => rfl⟩
  · rintro b ⟨⟩
  · rintro b ⟨⟩
  · rintro b ⟨⟩
  · rw [State.resetWith_chan]
    exact reset_legal hP

end Sys2Proof.Machine

/-! SUPPORT. The decoder and the encoder undo each other (30_encoding.md rules R61 to R71). -/

namespace Sys2Proof.Machine

/-- The operation code of a command (rule R63). -/
def opcodeOf : Instr → Nat
  | .setnote _ _ _ => 1
  | .setlin _ _ => 2
  | .getlin _ => 3
  | .setvol _ _ => 4
  | .getvol _ => 5
  | .ldins _ _ => 6
  | .silence => 7
  | .fxclr => 8
  | .event _ _ _ _ _ _ => 9
  | .tick => 10

theorem wordOp_encode (i : Instr) : wordOp (encode i) = opcodeOf i := by
  rw [wordOp, encode_toNat]
  cases i <;> simp only [encodeNat, opcodeOf] <;> omega

/-- The encoder leaves every reserved bit 0 (rule R62). -/
theorem reservedBits_encode (i : Instr) : reservedBits (encode i) = 0 := by
  rw [reservedBits, wordOp_encode, encode_toNat]
  cases i <;> simp only [encodeNat, opcodeOf] <;> omega

/-- A command's word carries its fields, each where its format puts it (rules R64 to R70). -/
theorem commandOf_encode (i : Instr) : commandOf (encode i) = i := by
  rw [commandOf, wordOp_encode]
  cases i with
  | silence | fxclr | tick => rfl
  | setnote | setlin | getlin | setvol | getvol | ldins | event =>
    simp only [opcodeOf, Instr.setnote.injEq, Instr.setlin.injEq, Instr.getlin.injEq, Instr.setvol.injEq, Instr.getvol.injEq,
      Instr.ldins.injEq, Instr.event.injEq, field_eq_iff, encode_toNat, encodeNat]
    omega

/-- Settles O1: the word's operation code is assigned, no reserved bit is set, and its fields are the command's. -/
theorem decodeReturnsWhatWasEncoded : Obligations.DecodeReturnsWhatWasEncoded := by
  intro i
  have hop : ¬(wordOp (encode i) = 0 ∨ 11 ≤ wordOp (encode i)) := by
    rw [wordOp_encode]
    cases i <;> simp [opcodeOf]
  rw [decode_assigned hop, if_neg (not_not.mpr (reservedBits_encode i)), commandOf_encode]

theorem encodeNat_commandOf {w : Word} (h : ¬(wordOp w = 0 ∨ 11 ≤ wordOp w)) (hres : reservedBits w = 0) :
    encodeNat (commandOf w) = w.toNat := by
  have hw := w.isLt
  have hop : wordOp w = w.toNat / 2 ^ 28 := rfl
  simp only [reservedBits] at hres
  unfold commandOf
  generalize wordOp w = op at h hres hop ⊢
  obtain ⟨hlo, hhi⟩ : 1 ≤ op ∧ op ≤ 10 := by omega
  interval_cases op <;> simp only [encodeNat, field_toNat] at hres ⊢ <;> omega

/-- Settles O2: a word that decodes names its command, has no reserved bit set, and is the sum of its fields. -/
theorem encodeReturnsTheDecodedWord : Obligations.EncodeReturnsTheDecodedWord := by
  intro w i hd
  by_cases hop : wordOp w = 0 ∨ 11 ≤ wordOp w
  · rw [decode_unassigned hop] at hd
    cases hd
  rw [decode_assigned hop] at hd
  split at hd
  · cases hd
  · next hres =>
    cases hd
    exact BitVec.eq_of_toNat_eq ((encode_toNat _).trans (encodeNat_commandOf hop (not_not.mp hres)))

/-- Settles O3: the twelve words are evaluated. -/
theorem specWordsDecode : Obligations.SpecWordsDecode := by
  unfold Obligations.SpecWordsDecode
  decide

end Sys2Proof.Machine

/-! SUPPORT. How many writes a command makes (00_scope.md rule R8). -/

namespace Sys2Proof.Machine

/-- The command makes at most `n` writes and answers one response. -/
def Bounded (n : Nat) (s : State) (o : Host.Outcome State Fault Refusal) : Prop :=
  ∃ t ws r, o = .next (t.respond r) ∧ Wrote s t ws ∧ ws.length ≤ n

theorem raise_bounded (n : Nat) (e : Err) (s : State) : Bounded n s (raise e s) :=
  ⟨s, [], Response.fault e, rfl, Wrote.refl s, Nat.zero_le n⟩

theorem Wrote.bounded {n : Nat} {s t : State} {ws : List (Byte × Byte)} (h : Wrote s t ws) (hn : ws.length ≤ n) (r : Response) :
    Bounded n s (finish r t) := ⟨t, ws, r, rfl, h, hn⟩

theorem withChannel_bounded {n : Nat} {ch : BitVec 4} {s : State} {k : Chan → Host.Outcome State Fault Refusal}
    (h : ∀ c, Bounded n s (k c)) : Bounded n s (withChannel ch s k) := by
  unfold withChannel
  split
  · exact h _
  · exact raise_bounded n _ s

theorem setNote_wrote_le (c : Chan) (oct : BitVec 3) (note : BitVec 4) (s : State) :
    ∃ ws, Wrote s (setNote c oct note s) ws ∧ ws.length ≤ 2 := by
  refine ⟨_, setNote_wrote c oct note s, ?_⟩
  split <;> simp

/-- A key-off, the eleven bytes of an instrument and the two writes of a note. -/
theorem noteHandled_wrote_le (c : Chan) (oct : BitVec 3) (note : BitVec 4) (ins : BitVec 5) (s : State) :
    ∃ ws, Wrote s (noteHandled c oct note ins s) ws ∧ ws.length ≤ 14 := by
  unfold noteHandled
  split
  · obtain ⟨ws, hw, hn⟩ := setNote_wrote_le c oct note (loadedState c ins s)
    have hload : (loadWrites c ins s).length ≤ 11 := by
      unfold loadWrites
      split <;> simp [insWrites, allOffsets]
    refine ⟨_, (loadedState_wrote c ins s).trans hw, ?_⟩
    simp only [List.length_append, List.length_cons]
    omega
  · exact ⟨[], Wrote.refl s, by simp⟩

theorem dispatchCommand_bounded (c : Chan) (cmd : BitVec 4) (param : Byte) {s u : State} {ws : List (Byte × Byte)} {n : Nat}
    (h : Wrote s u ws) (hn : ws.length ≤ n) : Bounded (n + 1) s (dispatchCommand c cmd param u) := by
  have hset (r : Channel) : Bounded (n + 1) s (finish .ok (u.setChan c r)) :=
    (h.trans (setChan_wrote u c r)).bounded (by simp; omega) .ok
  have hkeep (r : Response) : Bounded (n + 1) s (finish r u) := h.bounded (by omega) r
  unfold dispatchCommand
  split_ifs
  · exact hset _
  · exact hset _
  · exact hset _
  · exact hset _
  · exact (h.trans (setVol_wrote c param.toNat u)).bounded (by simp; omega) .ok
  · exact hkeep _
  · exact hkeep _
  · exact hkeep _

theorem tickWrites_length_le (P : Params) (c : Chan) (r : Channel) : (tickWrites P c r).length ≤ 5 := by
  simp only [tickWrites, List.length_append]
  split_ifs <;> simp [freqWrites]

theorem exec_bounded (i : Instr) (s : State) : Bounded (maxWrites i) s (exec i s) := by
  cases i with
  | setnote ch oct note =>
    refine withChannel_bounded fun c => ?_
    obtain ⟨ws, hw, hn⟩ := setNote_wrote_le c oct note s
    split
    · exact raise_bounded _ _ s
    · exact hw.bounded hn .ok
  | setlin ch lin => exact withChannel_bounded fun c => (setLin_wrote c lin.toInt s).bounded (Nat.le_refl 2) .ok
  | getlin ch => exact withChannel_bounded fun c => (Wrote.refl s).bounded (Nat.le_refl 0) _
  | setvol ch level => exact withChannel_bounded fun c => (setVol_wrote c level.toNat s).bounded (Nat.le_refl 1) .ok
  | getvol ch => exact withChannel_bounded fun c => (Wrote.refl s).bounded (Nat.le_refl 0) _
  | ldins ins ch =>
    refine withChannel_bounded fun c => ?_
    split
    · exact (loadIns_wrote _ c s).bounded (Nat.le_refl 11) .ok
    · exact raise_bounded _ _ s
  | silence => exact (silence_wrote s).1.bounded (Nat.le_refl 9) .ok
  | fxclr => exact (fxclr_wrote s).1.bounded (Nat.le_refl 0) .ok
  | event ch oct note cmd param ins =>
    refine withChannel_bounded fun c => ?_
    split
    · split
      · exact (slideToNote_wrote c oct _ param s).bounded (Nat.zero_le 15) .ok
      · exact raise_bounded _ _ s
    · obtain ⟨ws, hw, hn⟩ := noteHandled_wrote_le c oct note ins s
      exact dispatchCommand_bounded c cmd param hw hn
  | tick =>
    refine (tick_wrote s).1.bounded ?_ .ok
    have hchan (c : Chan) := tickWrites_length_le s.params c (s.chan c)
    rw [List.length_flatMap]
    exact List.sum_le_card_nsmul _ 5 (by simpa using hchan)

/-- Settles O51: each command's writes are those of its operations, counted. -/
theorem everyCommandEndsWithBoundedWrites : Obligations.EveryCommandEndsWithBoundedWrites := by
  intro i s
  obtain ⟨t, ws, r, hexec, hw, hn⟩ := exec_bounded i s
  obtain ⟨htrace, -, hresp, -, -, -, hpend⟩ := hw.ran r
  exact ⟨_, ws, r, hexec, htrace, hn, hresp, hpend⟩

end Sys2Proof.Machine

/-! SUPPORT. The access table (10_state.md rule R22): which registers a command leaves alone. -/

namespace Sys2Proof.Machine

/-- TICK can change the shadows and the tone slide's flag alone (42_effects.md rules R131 to R133). -/
theorem tick_eq (P : Params) (r : Channel) : r.tick P =
    { r with flo := (r.tick P).flo, fhi := (r.tick P).fhi, vol := (r.tick P).vol, tsact := (r.tick P).tsact } := by
  have hporta : r.tickPorta P = { r with flo := (r.tickPorta P).flo, fhi := (r.tickPorta P).fhi } := by
    unfold Channel.tickPorta
    split <;> rfl
  have htone (u : Channel) : u.tickTone P =
      { u with flo := (u.tickTone P).flo, fhi := (u.tickTone P).fhi, tsact := (u.tickTone P).tsact } := by
    unfold Channel.tickTone
    split_ifs <;> rfl
  have hvol (u : Channel) : u.tickVol = { u with vol := u.tickVol.vol } := by
    unfold Channel.tickVol
    split <;> rfl
  unfold Channel.tick
  rw [hvol, htone, hporta]

theorem unwrittenKept_refl (i : Instr) (r : Channel) : unwrittenKept i r r := by
  cases i with
  | setnote => simp [unwrittenKept]
  | event => trivial
  | setlin | getlin | setvol | getvol | ldins | silence | fxclr | tick => rfl

theorem ChanOp.chan_ne {c e : Chan} {s t : State} (h : ChanOp c s t) (he : e ≠ c) : t.chan e = s.chan e := by
  cases h with
  | noteOn oct n => exact (noteOn_chan c oct n s e).trans (if_neg he)
  | keyOff => exact (keyOff_chan c s e).trans (if_neg he)
  | setLin lin => exact (setLin_chan c lin s e).trans (if_neg he)
  | setVol level => exact (setVol_chan c level s e).trans (if_neg he)
  | loadIns idx => exact (loadIns_chan idx c s e).trans (if_neg he)
  | effects _ => exact State.setChan_chan_ne s _ he

theorem OpsOn.chan_kept {cs : Chan → Prop} {e : Chan} {s t : State} (h : OpsOn cs s t) (he : ¬cs e) : t.chan e = s.chan e := by
  induction h with
  | refl => rfl
  | tail _ hop ih =>
    obtain ⟨c, hc, hop⟩ := hop
    have hne : e ≠ c := fun h => he (h ▸ hc)
    rw [hop.chan_ne hne, ih]

/-- The command relates every channel's registers before and after it by `K`. -/
def Leaves (K : Channel → Channel → Prop) (s : State) (o : Host.Outcome State Fault Refusal) : Prop :=
  ∃ t, o = .next t ∧ ∀ c, K (s.chan c) (t.chan c)

theorem raise_leaves (i : Instr) (e : Err) (s : State) : Leaves (unwrittenKept i) s (raise e s) :=
  ⟨_, rfl, fun c => unwrittenKept_refl i (s.chan c)⟩

theorem finish_leaves {i : Instr} {c : Chan} {s t : State} {r : Channel} (hc : ∀ e, t.chan e = if e = c then r else s.chan e)
    (hr : unwrittenKept i (s.chan c) r) (rsp : Response) : Leaves (unwrittenKept i) s (finish rsp t) := by
  refine ⟨_, rfl, fun e => ?_⟩
  rw [State.respond_chan, hc]
  split
  · next h => rwa [h]
  · exact unwrittenKept_refl i _

theorem finish_leaves_all {i : Instr} {s t : State} {u : Chan → Channel} (hc : ∀ e, t.chan e = u e)
    (hu : ∀ e, unwrittenKept i (s.chan e) (u e)) : Leaves (unwrittenKept i) s (finish .ok t) :=
  ⟨_, rfl, fun e => (hc e).symm ▸ hu e⟩

theorem withChannel_leaves {i : Instr} {ch : BitVec 4} {s : State} {k : Chan → Host.Outcome State Fault Refusal}
    (h : ∀ c, Leaves (unwrittenKept i) s (k c)) : Leaves (unwrittenKept i) s (withChannel ch s k) := by
  unfold withChannel
  split
  · exact h _
  · exact raise_leaves i _ s

theorem exec_leaves (i : Instr) (s : State) : Leaves (unwrittenKept i) s (exec i s) := by
  cases i with
  | setnote ch oct note =>
    refine withChannel_leaves fun c => ?_
    split
    · exact raise_leaves _ _ s
    · next h0 =>
      refine finish_leaves (setNote_chan c oct note s) ?_ .ok
      simp only [unwrittenKept, if_neg h0]
      have hpos : note.toNat ≠ 0 := fun h => h0 (BitVec.eq_of_toNat_eq h)
      cases hn : noteIndex note with
      | some n =>
        have := noteIndex_some hn
        rw [if_pos (by omega)]
      | none =>
        have := (noteIndex_eq_none_iff h0).mp hn
        rw [if_neg (by omega)]
  | setlin ch lin => exact withChannel_leaves fun c => finish_leaves (i := .setlin ch lin) (setLin_chan c lin.toInt s) rfl .ok
  | getlin ch => exact withChannel_leaves fun c => ⟨_, rfl, fun _ => rfl⟩
  | setvol ch level => exact withChannel_leaves fun c => finish_leaves (i := .setvol ch level) (setVol_chan c level.toNat s) rfl .ok
  | getvol ch => exact withChannel_leaves fun c => ⟨_, rfl, fun _ => rfl⟩
  | ldins ins ch =>
    refine withChannel_leaves fun c => ?_
    split
    · exact finish_leaves (i := .ldins ins ch) (loadIns_chan _ c s) rfl .ok
    · exact raise_leaves _ _ s
  | silence => exact finish_leaves_all (i := .silence) (silence_wrote s).2 fun _ => rfl
  | fxclr => exact finish_leaves_all (i := .fxclr) (fxclr_wrote s).2 fun _ => rfl
  | event ch oct note cmd param ins =>
    obtain ⟨u, r, -, hexec⟩ := exec_does (.event ch oct note cmd param ins) s
    exact ⟨_, hexec, fun _ => trivial⟩
  | tick => exact finish_leaves_all (tick_wrote s).2 fun e => tick_eq s.params (s.chan e)

/-- Settles O52: each command's registers after it are those of its operations, and these act on its own channel alone. -/
theorem accessTableHolds : Obligations.AccessTableHolds := by
  intro i s
  obtain ⟨t, hexec, hkept⟩ := exec_leaves i s
  refine ⟨t, hexec, hkept, fun ch c hfield hne => ?_⟩
  obtain ⟨u, r, hops, hu⟩ := exec_does i s
  cases hexec.symm.trans hu
  exact hops.chan_kept fun h => hne (h ch hfield)

end Sys2Proof.Machine

/-! SUPPORT. A per-channel command reads its own channel, the parameters and the bank (10_state.md rule R22). -/

namespace Sys2Proof.Machine

/-- What a command on channel `c` can read is the same in both states. -/
def Agree (c : Chan) (s₁ s₂ : State) : Prop := s₁.params = s₂.params ∧ s₁.bank = s₂.bank ∧ s₁.chan c = s₂.chan c

/-- Both states made the same writes and ended with the same registers of channel `c`. -/
def SameEffect (c : Chan) (s₁ s₂ t₁ t₂ : State) : Prop :=
  ∃ ws, Wrote s₁ t₁ ws ∧ Wrote s₂ t₂ ws ∧ t₁.chan c = t₂.chan c

section
variable {c : Chan} {s₁ s₂ t₁ t₂ u₁ u₂ : State}

theorem Agree.insRead (h : Agree c s₁ s₂) : s₁.insRead = s₂.insRead := by
  obtain ⟨-, hbank, -⟩ := h
  funext k i
  rw [State.insRead, State.insRead, hbank]

theorem Agree.refl_effect (h : Agree c s₁ s₂) : SameEffect c s₁ s₂ s₁ s₂ := ⟨[], Wrote.refl s₁, Wrote.refl s₂, h.2.2⟩

theorem SameEffect.agree (h : SameEffect c s₁ s₂ t₁ t₂) (hs : Agree c s₁ s₂) : Agree c t₁ t₂ := by
  obtain ⟨ws, h₁, h₂, hc⟩ := h
  obtain ⟨hparams, hbank, -⟩ := hs
  exact ⟨h₁.params.trans (hparams.trans h₂.params.symm), h₁.bank.trans (hbank.trans h₂.bank.symm), hc⟩

theorem SameEffect.trans (h : SameEffect c s₁ s₂ t₁ t₂) (k : SameEffect c t₁ t₂ u₁ u₂) : SameEffect c s₁ s₂ u₁ u₂ := by
  obtain ⟨ws, h₁, h₂, -⟩ := h
  obtain ⟨vs, k₁, k₂, hc⟩ := k
  exact ⟨ws ++ vs, h₁.trans k₁, h₂.trans k₂, hc⟩

theorem setChan_sameEffect (s₁ s₂ : State) (c : Chan) (r : Channel) : SameEffect c s₁ s₂ (s₁.setChan c r) (s₂.setChan c r) :=
  ⟨[], setChan_wrote .., setChan_wrote .., by simp⟩

variable (h : Agree c s₁ s₂)
include h

theorem keyOff_sameEffect : SameEffect c s₁ s₂ (keyOff c s₁) (keyOff c s₂) := by
  obtain ⟨hparams, -, hc⟩ := h
  have hw := keyOff_wrote c s₂
  rw [← hparams, ← hc] at hw
  exact ⟨_, keyOff_wrote c s₁, hw, by simp only [keyOff_chan, hc]⟩

theorem noteOn_sameEffect (oct : BitVec 3) (n : Fin 12) : SameEffect c s₁ s₂ (noteOn c oct n s₁) (noteOn c oct n s₂) := by
  obtain ⟨hparams, -, hc⟩ := h
  have hw := noteOn_wrote c oct n s₂
  rw [← hparams] at hw
  exact ⟨_, noteOn_wrote c oct n s₁, hw, by simp only [noteOn_chan, hc, hparams]⟩

theorem setNote_sameEffect (oct : BitVec 3) (note : BitVec 4) :
    SameEffect c s₁ s₂ (setNote c oct note s₁) (setNote c oct note s₂) := by
  unfold setNote
  split
  · exact noteOn_sameEffect h oct _
  · exact keyOff_sameEffect h

theorem setLin_sameEffect (lin : Int) : SameEffect c s₁ s₂ (setLin c lin s₁) (setLin c lin s₂) := by
  obtain ⟨hparams, -, hc⟩ := h
  have hw := setLin_wrote c lin s₂
  rw [← hparams, ← hc] at hw
  exact ⟨_, setLin_wrote c lin s₁, hw, by simp only [setLin_chan, hc, hparams]⟩

theorem setVol_sameEffect (level : Nat) : SameEffect c s₁ s₂ (setVol c level s₁) (setVol c level s₂) := by
  obtain ⟨hparams, -, hc⟩ := h
  have hw := setVol_wrote c level s₂
  rw [← hparams, ← hc] at hw
  exact ⟨_, setVol_wrote c level s₁, hw, by simp only [setVol_chan, hc]⟩

theorem loadIns_sameEffect (idx : Slot) : SameEffect c s₁ s₂ (loadIns idx c s₁) (loadIns idx c s₂) := by
  have hins := h.insRead
  obtain ⟨hparams, -, hc⟩ := h
  have hwrites : insWrites s₁ idx c = insWrites s₂ idx c := by rw [insWrites, insWrites, hparams, hins]
  exact ⟨_, loadIns_wrote idx c s₁, hwrites ▸ loadIns_wrote idx c s₂, by simp only [loadIns_chan, hc, hparams, hins]⟩

theorem triggerNote_sameEffect (oct : BitVec 3) (note : BitVec 4) (ins : BitVec 5) :
    SameEffect c s₁ s₂ (triggerNote c oct note ins s₁) (triggerNote c oct note ins s₂) := by
  have hoff := keyOff_sameEffect h
  have hload : SameEffect c s₁ s₂ (loadedState c ins s₁) (loadedState c ins s₂) := by
    unfold loadedState
    split
    · exact hoff.trans (loadIns_sameEffect (hoff.agree h) _)
    · exact hoff
  exact hload.trans (setNote_sameEffect (hload.agree h) oct note)

end

/-- Both outcomes are the same response after the same effect. -/
def SameAnswer (c : Chan) (s₁ s₂ : State) (o₁ o₂ : Host.Outcome State Fault Refusal) : Prop :=
  ∃ t₁ t₂ r, SameEffect c s₁ s₂ t₁ t₂ ∧ o₁ = .next (t₁.respond r) ∧ o₂ = .next (t₂.respond r)

section
variable {c : Chan} {s₁ s₂ t₁ t₂ : State}

theorem SameEffect.answer (h : SameEffect c s₁ s₂ t₁ t₂) (r : Response) :
    SameAnswer c s₁ s₂ (finish r t₁) (finish r t₂) := ⟨t₁, t₂, r, h, rfl, rfl⟩

theorem SameEffect.trans_answer {o₁ o₂ : Host.Outcome State Fault Refusal} (h : SameEffect c s₁ s₂ t₁ t₂)
    (k : SameAnswer c t₁ t₂ o₁ o₂) : SameAnswer c s₁ s₂ o₁ o₂ := by
  obtain ⟨u₁, u₂, r, hu, ho₁, ho₂⟩ := k
  exact ⟨u₁, u₂, r, h.trans hu, ho₁, ho₂⟩

variable (h : Agree c s₁ s₂)
include h

theorem raise_sameAnswer (e : Err) : SameAnswer c s₁ s₂ (raise e s₁) (raise e s₂) :=
  ⟨s₁, s₂, Response.fault e, h.refl_effect, rfl, rfl⟩

theorem dispatchCommand_sameAnswer (cmd : BitVec 4) (param : Byte) :
    SameAnswer c s₁ s₂ (dispatchCommand c cmd param s₁) (dispatchCommand c cmd param s₂) := by
  obtain ⟨hparams, -, hc⟩ := id h
  simp only [dispatchCommand, ← hparams, ← hc]
  split_ifs
  · exact (setChan_sameEffect s₁ s₂ c _).answer .ok
  · exact (setChan_sameEffect s₁ s₂ c _).answer .ok
  · exact (setChan_sameEffect s₁ s₂ c _).answer .ok
  · exact (setChan_sameEffect s₁ s₂ c _).answer .ok
  · exact (setVol_sameEffect h _).answer .ok
  · exact h.refl_effect.answer _
  · exact h.refl_effect.answer _
  · exact h.refl_effect.answer _

theorem exec_sameAnswer {i : Instr} {ch : BitVec 4} (hi : channelField i = some ch) (hch : ch.toNat = c.val) :
    SameAnswer c s₁ s₂ (exec i s₁) (exec i s₂) := by
  obtain ⟨hparams, -, hc⟩ := id h
  cases i with
  | silence | fxclr | tick => cases hi
  | setnote _ oct note =>
    cases hi
    simp only [exec, execSetnote, withChannel_eq hch]
    split
    · exact raise_sameAnswer h _
    · exact (setNote_sameEffect h oct note).answer .ok
  | setlin _ lin =>
    cases hi
    simp only [exec, execSetlin, withChannel_eq hch]
    exact (setLin_sameEffect h lin.toInt).answer .ok
  | getlin =>
    cases hi
    simp only [exec, execGetlin, withChannel_eq hch, getLin, hparams, hc]
    exact h.refl_effect.answer _
  | setvol _ level =>
    cases hi
    simp only [exec, execSetvol, withChannel_eq hch]
    exact (setVol_sameEffect h level.toNat).answer .ok
  | getvol =>
    cases hi
    simp only [exec, execGetvol, withChannel_eq hch, getVol, hc]
    exact h.refl_effect.answer _
  | ldins ins =>
    cases hi
    simp only [exec, execLdins, withChannel_eq hch]
    split
    · exact (loadIns_sameEffect h _).answer .ok
    · exact raise_sameAnswer h _
  | event _ oct note cmd param ins =>
    cases hi
    simp only [exec, execEvent, withChannel_eq hch, ← hparams]
    split_ifs
    · split
      · simp only [slideToNote, ← hparams, ← hc]
        exact (setChan_sameEffect s₁ s₂ c _).answer .ok
      · exact raise_sameAnswer h _
    · have htrigger := triggerNote_sameEffect h oct note ins
      exact htrigger.trans_answer (dispatchCommand_sameAnswer (htrigger.agree h) cmd param)
    · exact dispatchCommand_sameAnswer h cmd param

end

/-- Settles O53: two agreeing states agree again after every operation of the command, which makes the same writes from both. -/
theorem otherChannelsDoNotInterfere : Obligations.OtherChannelsDoNotInterfere := by
  intro i ch c s₁ s₂ hi hch hparams hbank hc
  obtain ⟨t₁, t₂, r, ⟨ws, hw₁, hw₂, ht⟩, hexec₁, hexec₂⟩ := exec_sameAnswer ⟨hparams, hbank, hc⟩ hi hch
  obtain ⟨htrace₁, -, hresp₁, -⟩ := hw₁.ran r
  obtain ⟨htrace₂, -, hresp₂, -⟩ := hw₂.ran r
  exact ⟨_, _, ws, r, hexec₁, hexec₂, ht, htrace₁, htrace₂, hresp₁, hresp₂⟩

end Sys2Proof.Machine

/-! SUPPORT. What every step keeps and appends, and what the ports do in and out of reset (10_state.md rules R29, R33, 20_memory.md
rules R42, R44, 70_reset_and_hazards.md rule R170). -/

namespace Sys2Proof.Machine

/-- A command's next state, in the terms of the claims. -/
theorem exec_ran (i : Instr) (s : State) : ∃ t ws r, exec i s = .next t ∧ Ran s t ws r := by
  obtain ⟨u, ws, r, hexec, hw, -⟩ := exec_bounded i s
  exact ⟨_, ws, r, hexec, hw.ran r⟩

/-- Settles O60: each of the seven kinds of step answers a next state. -/
theorem everyStepAnswersANextState : Obligations.EveryStepAnswersANextState := by
  intro s
  obtain ⟨-, -, h⟩ | ⟨-, -, h⟩ | ⟨w, rest, i, -, -, -, h⟩ | ⟨w, rest, e, -, -, -, h⟩ | ⟨k, i, b, rest, -, h⟩ | ⟨rest, -, h⟩ |
    ⟨rest, -, h⟩ := step_cases s
  · exact ⟨_, h⟩
  · exact ⟨_, h⟩
  · obtain ⟨t, ws, r, hexec, -⟩ := exec_ran i { s with pending := rest }
    exact ⟨t, h.trans hexec⟩
  · exact ⟨_, h⟩
  · exact ⟨_, h⟩
  · exact ⟨_, h⟩
  · exact ⟨_, h⟩

@[simp] theorem State.held_params (s : State) : s.held.params = s.params := by
  unfold State.held
  split <;> rfl

@[simp] theorem State.held_bank (s : State) : s.held.bank = s.bank := by
  unfold State.held
  split <;> rfl

/-- Settles O58: a command keeps both, a reset too, and of the host's inputs only a bank byte reaches the bank. -/
theorem noStepChangesParametersOrBank : Obligations.NoStepChangesParametersOrBank := by
  intro s t hstep
  obtain ⟨-, -, h⟩ | ⟨-, -, h⟩ | ⟨w, rest, i, -, -, -, h⟩ | ⟨w, rest, e, -, -, -, h⟩ | ⟨k, i, b, rest, hp, h⟩ | ⟨rest, -, h⟩ |
    ⟨rest, -, h⟩ := step_cases s
  · cases h.symm.trans hstep
    exact ⟨rfl, fun _ => rfl⟩
  · cases h.symm.trans hstep
    exact ⟨rfl, fun _ => rfl⟩
  · obtain ⟨u, ws, r, hexec, -, -, -, hparams, hbank, -⟩ := exec_ran i { s with pending := rest }
    cases (h.trans hexec).symm.trans hstep
    exact ⟨hparams, fun _ => hbank⟩
  · cases h.symm.trans hstep
    exact ⟨rfl, fun _ => rfl⟩
  · cases h.symm.trans hstep
    exact ⟨s.held_params, fun hno => absurd hp (hno k i b rest)⟩
  · cases h.symm.trans hstep
    exact ⟨rfl, fun _ => rfl⟩
  · cases h.symm.trans hstep
    exact ⟨s.held_params, fun _ => s.held_bank⟩

/-- The trace grew by writes to registers of the map alone (rule R42). -/
def AppendsMapped (s t : State) : Prop :=
  ∃ ws, t.trace = s.trace ++ ws ∧ ∀ p ∈ ws, ∃ reg : ChipReg, p.1 = s.params.addr reg

theorem AppendsMapped.refl (s : State) : AppendsMapped s s := ⟨[], by simp⟩

theorem OpsOn.appendsMapped {cs : Chan → Prop} {s t : State} (hP : s.params.admissible = true) (h : OpsOn cs s t) :
    t.params = s.params ∧ AppendsMapped s t := by
  induction h with
  | refl => exact ⟨rfl, AppendsMapped.refl s⟩
  | tail _ hop ih =>
    obtain ⟨c, -, hop⟩ := hop
    obtain ⟨hparams, ws, htrace, hws⟩ := ih
    obtain ⟨regs, ins, ⟨htrace', -⟩, -⟩ := hop.wroteRegs (hparams ▸ hP)
    refine ⟨hop.params.trans hparams, _, by rw [htrace', htrace, List.append_assoc], fun p hp => ?_⟩
    rcases List.mem_append.mp hp with hp | hp
    · exact hws p hp
    · obtain ⟨reg, -, rfl⟩ := List.mem_map.mp hp
      exact ⟨reg, by rw [hparams]⟩

/-- Settles O59: an operation writes registers of its channel; no other step out of reset touches the trace. -/
theorem writesOnlyAppendMappedRegisters : Obligations.WritesOnlyAppendMappedRegisters := by
  intro s t hP hrst hstep hlow
  have hheld := State.held_of_low hrst
  show AppendsMapped s t
  obtain ⟨-, -, h⟩ | ⟨hhigh, -, -⟩ | ⟨w, rest, i, -, -, -, h⟩ | ⟨w, rest, e, -, -, -, h⟩ | ⟨k, i, b, rest, -, h⟩ |
    ⟨rest, -, h⟩ | ⟨rest, -, h⟩ := step_cases s
  · cases h.symm.trans hstep
    exact AppendsMapped.refl s
  · exact absurd (hrst.symm.trans hhigh) Bool.false_ne_true
  · obtain ⟨u, r, hops, hexec⟩ := exec_does i { s with pending := rest }
    cases (h.trans hexec).symm.trans hstep
    obtain ⟨-, hmapped⟩ := OpsOn.appendsMapped (s := { s with pending := rest }) hP hops
    exact hmapped
  · cases h.symm.trans hstep
    exact AppendsMapped.refl s
  · cases h.symm.trans hstep
    rw [hheld]
    exact AppendsMapped.refl s
  · cases h.symm.trans hstep
    cases hlow
  · cases h.symm.trans hstep
    rw [hheld]
    exact AppendsMapped.refl s

/-- Settles O12: the word is taken from the inputs, and the decoder's command is executed. -/
theorem stepRunsTheDecodedCommand : Obligations.StepRunsTheDecodedCommand := by
  intro s w rest i hrst hp hd
  rw [step_command hrst hp, hd]

/-- Settles O13: out of reset the block is ready, and with no input it keeps its state. -/
theorem idleKeepsAllState : Obligations.IdleKeepsAllState := fun s hrst hp =>
  ⟨step_idle hrst hp, by simp [State.cmdReady, hrst]⟩

/-- Settles O16: both steps end in the reset block, with `rst` as driven. -/
theorem resetEmptiesTheTrace : Obligations.ResetEmptiesTheTrace := by
  refine ⟨fun s rest hp => ⟨_, step_rst_high hp, rfl, rfl, rfl, fun _ => rfl, rfl⟩, fun s rest hrst hp => ?_⟩
  have hstep := step_rst_low hp
  rw [State.held_of_high hrst] at hstep
  exact ⟨_, hstep, rfl, rfl, rfl, rfl⟩

/-- Settles O17: the step resets the block and takes no input. -/
theorem commandWaitsWhileInReset : Obligations.CommandWaitsWhileInReset := fun _ _ _ hrst hp =>
  ⟨_, step_command_reset hrst hp, rfl, rfl, hrst, rfl⟩

/-- Settles O8: the codes are read off the table. -/
theorem faultCodesAreNumbered : Obligations.FaultCodesAreNumbered := by
  refine ⟨rfl, rfl, rfl, rfl, rfl, rfl, fun e => ?_⟩
  cases e <;> decide

/-- Settles O19: the constraints are decided on the record's numbers. -/
theorem referenceRecordIsAdmissible : Obligations.ReferenceRecordIsAdmissible := by
  unfold Obligations.ReferenceRecordIsAdmissible
  decide +kernel

/-- Settles O28: the read falls back to the free value exactly where the bank lists nothing. -/
theorem insReadReadsTheBank : Obligations.InsReadReadsTheBank := by
  intro s k i
  refine ⟨fun b hb => ?_, fun hnone => ?_⟩
  · rw [State.insRead, bankAddr, hb, Option.getD_some]
  · rw [State.insRead, bankAddr, hnone, Option.getD_none]

end Sys2Proof.Machine

/-! SUPPORT. EVENT's note-trigger branch and its set-volume command (41_event.md rules R115, R120), and SETVOL followed by GETVOL
(40_driver.md rule R89). -/

namespace Sys2Proof.Machine

/-- A second key-off changes nothing (rule R84). -/
@[simp] theorem fhiKeyedOff_idem (fhi : Byte) : fhiKeyedOff (fhiKeyedOff fhi) = fhiKeyedOff fhi := by
  refine BitVec.eq_of_toNat_eq ?_
  rw [fhiKeyedOff_toNat, fhiKeyedOff_toNat, Nat.mod_mod]

/-- Settles O32: the event is `triggerNote`, whose writes and registers are known; the command is none that the dispatch knows. -/
theorem eventTriggersTheNote : Obligations.EventTriggersTheNote := by
  intro s ch c oct note cmd param ins hP hch hnote hcmd
  have h0 := note_ne_zero hnote
  have hnoSlide : ¬(note ≠ 0 ∧ cmd = s.params.cmdToneSlide) := fun ⟨_, h⟩ => hcmd (by simp [Params.cmdIds, h])
  have hother : cmd ∉ dispatchIds (noteHandled c oct note ins s).params := by
    rw [noteHandled_params]
    exact fun hmem => hcmd ((cmdIds_perm s.params).mem_iff.mpr (.tail _ hmem))
  have hexec := exec_event_dispatch hch oct param ins hnoSlide
  rw [dispatchCommand_other hother, noteHandled, if_pos h0] at hexec
  obtain ⟨hchan, hothers, hran⟩ :=
    (triggerNote_wrote c oct note ins s).channel_ran (triggerNote_chan c oct note ins s) .ok
  refine ⟨_, fhiKeyedOff (s.chan c).fhi, loadedVol c ins s, loadWrites c ins s, hexec, fhiKeyedOff_toNat _, ?_, ?_, hothers, ?_, ?_⟩
  · rintro rfl
    exact ⟨rfl, rfl⟩
  · intro k hk
    simp only [loadedVol, loadWrites, insWrites, slotOfNumber_eq hk, and_self]
  · intro n hn
    rw [noteIndex_eq hn] at hchan hran
    exact ⟨_, _, fnumLow_toNat _, (fhi_noteOn_toNat _ _).trans (Nat.add_assoc _ _ _).symm, hchan, hran⟩
  · intro hoff
    rw [noteIndex_none (.inr hoff), fhiKeyedOff_idem] at hchan hran
    exact ⟨hchan, hran⟩

theorem lastWrite_singleton (p : Byte × Byte) (a : Byte) : lastWrite [p] a = if p.1 = a then some p.2 else none := rfl

/-- Settles O37: the arm is `setVol` on the state that the note branch leaves. -/
theorem eventSetsTheVolume : Obligations.EventSetsTheVolume := by
  intro s ch c oct note param ins hP hch
  have hparams := noteHandled_params c oct note ins s
  have hexec := exec_event_dispatchId hP hch oct note ins param (cmd := s.params.cmdSetVol) (by simp [dispatchIds])
  rw [dispatchCommand_setVol hP hparams] at hexec
  obtain ⟨htrace, hchip, hresp, hparams', hbank, hrst, hpend⟩ := setVol_wrote c param.toNat (noteHandled c oct note ins s)
  have hc := setVol_chan c param.toNat (noteHandled c oct note ins s)
  rw [hparams] at htrace hchip
  refine ⟨_, _, _, exec_event_noCommand hP hch oct note ins, hexec, volWithLevel_toNat _ param.toNat, (hc c).trans (if_pos rfl),
    fun e he => (hc e).trans (if_neg he), htrace, fun a => ?_, ?_⟩
  · rw [State.respond_chipByte, State.respond_chipByte, hchip, lastWrite_singleton, State.respond_chan]
    by_cases ha : a = s.params.volAddr c
    · simp [ha]
    · simp [ha, Ne.symm ha]
  · rfl

/-- Settles O50: the stored byte's attenuation is the clamped level's complement. -/
theorem volumeRoundTrips : Obligations.VolumeRoundTrips := by
  intro s ch c level hch
  have hvol : (((setVol c level.toNat s).respond .ok).chan c).vol.toNat =
      (s.chan c).vol.toNat / 64 * 64 + (63 - min level.toNat 63) := by
    rw [State.respond_chan, setVol_chan, if_pos rfl]
    exact volWithLevel_toNat _ _
  refine ⟨_, _, exec_setvol hch level s, ?_, exec_getvol hch _, by omega⟩
  have hlevel : getVol c ((setVol c level.toNat s).respond .ok) = min level.toNat 63 := by
    rw [getVol, channel_level, hvol]
    omega
  rw [hlevel, i16_toInt (by omega) (by omega)]

end Sys2Proof.Machine

/-! SUPPORT. TICK on one channel's registers: which of them each effect touches (42_effects.md rules R131 to R134, R140). -/

namespace Sys2Proof.Machine

theorem tickPorta_of_zero (P : Params) {r : Channel} (h : r.porta = 0) : r.tickPorta P = r := if_neg (not_not.mpr h)

theorem tickPorta_of_ne_zero (P : Params) {r : Channel} (h : r.porta ≠ 0) :
    r.tickPorta P = r.withLinear P (r.linear P + r.porta.toInt) := if_pos h

theorem tickTone_of_inactive (P : Params) {r : Channel} (h : r.tsact = false) : r.tickTone P = r := by
  simp [Channel.tickTone, h]

theorem tickTone_of_arrived {P : Params} {r : Channel} (h : r.tsact = true) (heq : r.linear P = r.tstgt.toInt) :
    r.tickTone P = { r with tsact := false } := by
  simp [Channel.tickTone, h, heq]

theorem tickTone_of_away {P : Params} {r : Channel} (h : r.tsact = true) (hne : r.linear P ≠ r.tstgt.toInt) {new : Int}
    (hnew : slideTo (r.linear P) r.tstgt.toInt r.tsstep.toNat = new) :
    r.tickTone P = { r.withLinear P new with tsact := decide (new ≠ r.tstgt.toInt) } := by
  simp only [Channel.tickTone, h, if_true, hne, if_false, hnew]

theorem tickVol_of_zero {r : Channel} (h : r.vsl = 0) : r.tickVol = r := if_neg (not_not.mpr h)

/-- The shadow volume depends on the volume slide alone. -/
theorem tick_vol (P : Params) (r : Channel) : (r.tick P).vol = r.tickVol.vol := by
  have hporta : (r.tickPorta P).vol = r.vol ∧ (r.tickPorta P).vsl = r.vsl := by
    unfold Channel.tickPorta
    split <;> exact ⟨rfl, rfl⟩
  have htone (u : Channel) : (u.tickTone P).vol = u.vol ∧ (u.tickTone P).vsl = u.vsl := by
    unfold Channel.tickTone
    split_ifs <;> exact ⟨rfl, rfl⟩
  obtain ⟨hvol, hvsl⟩ := htone (r.tickPorta P)
  rw [hporta.1] at hvol
  rw [hporta.2] at hvsl
  simp only [Channel.tick, Channel.tickVol, hvsl, Channel.level, hvol, ne_eq, ite_not]
  split
  · exact hvol
  · rfl

/-- The volume slide touches neither the frequency nor the tone slide's flag. -/
theorem tick_frequency (P : Params) (r : Channel) : (r.tick P).linear P = ((r.tickPorta P).tickTone P).linear P ∧
    (r.tick P).fhi = ((r.tickPorta P).tickTone P).fhi ∧ (r.tick P).tsact = ((r.tickPorta P).tickTone P).tsact := by
  rw [Channel.tick]
  generalize (r.tickPorta P).tickTone P = u
  unfold Channel.tickVol
  split <;> exact ⟨rfl, rfl, rfl⟩

/-- The effect registers that TICK keeps (rule R140). -/
theorem tick_effects (P : Params) (r : Channel) : (r.tick P).porta = r.porta ∧ (r.tick P).tstgt = r.tstgt ∧
    (r.tick P).tsstep = r.tsstep ∧ (r.tick P).vsl = r.vsl := by
  rw [tick_eq]
  exact ⟨rfl, rfl, rfl, rfl⟩

theorem keyOn_eq (r : Channel) : r.keyOn = decide (r.fhi.toNat / 32 % 2 = 1) := Nat.testBit_eq_decide_div_mod_eq

theorem withLinear_keyOn (P : Params) (lin : Int) (r : Channel) : (r.withLinear P lin).keyOn = r.keyOn := by
  have hpitch := pitchHigh_lt (fromLinear P lin).1 (fromLinear P lin).2
  rw [pitchHigh_toNat] at hpitch
  have hbit : (r.withLinear P lin).fhi.toNat / 32 % 2 = r.fhi.toNat / 32 % 2 := by
    rw [withLinear_fhi_toNat]
    omega
  rw [keyOn_eq, keyOn_eq, hbit]

theorem tick_keyOn (P : Params) (r : Channel) : (r.tick P).keyOn = r.keyOn := by
  obtain ⟨-, hfhi, -⟩ := tick_frequency P r
  have hporta : (r.tickPorta P).keyOn = r.keyOn := by
    unfold Channel.tickPorta
    split
    · exact withLinear_keyOn ..
    · rfl
  have htone (u : Channel) : (u.tickTone P).keyOn = u.keyOn := by
    unfold Channel.tickTone
    split_ifs
    · rfl
    · exact withLinear_keyOn ..
    · rfl
  rw [Channel.keyOn, hfhi]
  exact (htone _).trans hporta

/-- TICK arms no tone slide. -/
theorem tick_tsact_imp {P : Params} {r : Channel} (h : (r.tick P).tsact = true) : r.tsact = true := by
  obtain ⟨-, -, htsact⟩ := tick_frequency P r
  obtain ⟨hporta, -, -⟩ := tickPorta_tsact P r
  by_contra hoff
  have hoff' : (r.tickPorta P).tsact = false := hporta.trans (Bool.not_eq_true _ ▸ hoff)
  rw [htsact, tickTone_of_inactive P hoff', hoff'] at h
  exact Bool.false_ne_true h

/-- Settles O44: TICK is one function of each channel's registers, and that function keeps them. -/
theorem tickKeepsEffectRegistersAndKeyOn : Obligations.TickKeepsEffectRegistersAndKeyOn := by
  intro s
  obtain ⟨hw, hc⟩ := tick_wrote s
  obtain ⟨-, -, hresp, hparams, hbank, -⟩ := hw.ran .ok
  refine ⟨_, exec_tick s, hresp, hparams, hbank, fun c => ?_⟩
  rw [State.respond_chan, hc]
  obtain ⟨hporta, htgt, hstep, hvsl⟩ := tick_effects s.params (s.chan c)
  exact ⟨hporta, htgt, hstep, hvsl, tick_tsact_imp, tick_keyOn s.params (s.chan c)⟩

end Sys2Proof.Machine

/-! SUPPORT. TICK where at most one channel has an effect armed (42_effects.md rules R131 to R133), and the first commands after reset
(70_reset_and_hazards.md rule R173). -/

namespace Sys2Proof.Machine

theorem tickChannel_disarmed {s : State} {c : Chan} (h : (s.chan c).disarmed) : tickChannel s c = s := by
  obtain ⟨hporta, htone, hvol⟩ := h
  have h1 : portamento c s = s := if_neg (by simp [Channel.portaArmed, hporta])
  have h2 : toneSlide c s = s := if_neg (by simp [Channel.toneArmed, htone])
  have h3 : volumeSlide c s = s := if_neg (by simp [Channel.volArmed, hvol])
  rw [tickChannel, h1, h2, h3]

theorem foldl_tick_disarmed {cs : List Chan} {s : State} (h : ∀ e ∈ cs, (s.chan e).disarmed) : cs.foldl tickChannel s = s := by
  induction cs with
  | nil => rfl
  | cons d ds ih =>
    rw [List.foldl_cons, tickChannel_disarmed (h d (by simp))]
    exact ih fun e he => h e (by simp [he])

/-- Where no other channel has an effect armed, the loop of TICK acts on channel `c` alone. -/
theorem foldl_tick_only {c : Chan} {cs : List Chan} (hn : cs.Nodup) (hc : c ∈ cs) {s : State}
    (h : ∀ e, e ≠ c → (s.chan e).disarmed) : cs.foldl tickChannel s = tickChannel s c := by
  induction cs with
  | nil => cases hc
  | cons d ds ih =>
    obtain ⟨hd, hds⟩ := List.nodup_cons.mp hn
    rw [List.foldl_cons]
    by_cases hdc : d = c
    · subst hdc
      refine foldl_tick_disarmed fun e he => ?_
      have hne : e ≠ d := fun hed => hd (hed ▸ he)
      rw [(tickChannel_wrote s d).2, if_neg hne]
      exact h e hne
    · rw [tickChannel_disarmed (h d hdc)]
      exact ih hds ((List.mem_cons.mp hc).resolve_left (Ne.symm hdc))

theorem exec_tick_only {s : State} {c : Chan} (h : ∀ e, e ≠ c → (s.chan e).disarmed) :
    exec .tick s = .next ((tickChannel s c).respond .ok) := by
  rw [exec_tick, foldl_tick_only allChannels_nodup (mem_allChannels c) h]

/-- What such a TICK does, given the channel's registers and writes. -/
theorem tick_only_ran {s : State} {c : Chan} (h : ∀ e, e ≠ c → (s.chan e).disarmed) {r : Channel} {ws : List (Byte × Byte)}
    (hr : (s.chan c).tick s.params = r) (hws : tickWrites s.params c (s.chan c) = ws) :
    ∃ t, exec .tick s = .next t ∧ t.chan c = r ∧ OtherChannelsKept c s t ∧ Ran s t ws .ok := by
  obtain ⟨hw, hc⟩ := tickChannel_wrote s c
  rw [hr] at hc
  rw [hws] at hw
  exact ⟨_, exec_tick_only h, hw.channel_ran hc .ok⟩

/-- Settles O41: portamento alone is `withLinear` of the sum, whose bytes follow from the sum's split. -/
theorem tickAppliesPortamento : Obligations.TickAppliesPortamento := by
  intro s c hP hothers htone hvsl
  refine ⟨fun hporta => ?_, fun q r hporta hsum h0 h1 => ?_⟩
  · rw [exec_tick_only hothers, tickChannel_disarmed ⟨hporta, htone, hvsl⟩]
    rfl
  · have hp := tickPorta_of_ne_zero s.params hporta
    have hlin : (s.chan c).linear s.params + (s.chan c).porta.toInt = q * s.params.octaveSpan + r := hsum
    rw [hlin] at hp
    have htick : (s.chan c).tick s.params = (s.chan c).withLinear s.params (q * s.params.octaveSpan + r) := by
      rw [Channel.tick, hp, tickTone_of_inactive, tickVol_of_zero]
      · exact hvsl
      · exact htone
    have hws : tickWrites s.params c (s.chan c) =
        freqWrites s.params c ((s.chan c).withLinear s.params (q * s.params.octaveSpan + r)) := by
      simp only [tickWrites, hp, if_pos hporta, htone, hvsl, Bool.false_eq_true, false_and, ne_eq, not_true_eq_false, if_false,
        List.append_nil]
    obtain ⟨t, hexec, hchan, hkept, hran⟩ := tick_only_ran hothers htick hws
    exact ⟨t, _, _, hexec, withLinear_flo_split hP h0 h1 _, withLinear_fhi_split hP h0 h1 _, hchan, hkept, hran⟩

/-- Settles O42: the tone slide alone disarms at the target and else is `withLinear` of one clamped step. -/
theorem tickAppliesToneSlide : Obligations.TickAppliesToneSlide := by
  intro s c hP hothers htone hporta hvsl
  have hp := tickPorta_of_zero s.params hporta
  refine ⟨fun harrived => ?_, fun new q r haway hup hdown hsplit h0 h1 => ?_⟩
  · refine tick_only_ran hothers ?_ ?_
    · rw [Channel.tick, hp, tickTone_of_arrived htone harrived, tickVol_of_zero]
      exact hvsl
    · have hlin : (s.chan c).linear s.params = (s.chan c).tstgt.toInt := harrived
      simp [tickWrites, hp, hporta, hlin, hvsl]
  · have haway' : (s.chan c).linear s.params ≠ (s.chan c).tstgt.toInt := haway
    have hnew : slideTo ((s.chan c).linear s.params) (s.chan c).tstgt.toInt (s.chan c).tsstep.toNat = new := by
      unfold slideTo
      split
      · next hlt => exact (hup hlt).symm
      · next hge => exact (hdown (lt_of_le_of_ne (not_lt.mp hge) haway'.symm)).symm
    have ht := tickTone_of_away htone haway' hnew
    have htick : (s.chan c).tick s.params =
        { (s.chan c).withLinear s.params new with tsact := decide (new ≠ (s.chan c).tstgt.toInt) } := by
      rw [Channel.tick, hp, ht, tickVol_of_zero]
      exact hvsl
    have hws : tickWrites s.params c (s.chan c) = freqWrites s.params c ((s.chan c).withLinear s.params new) := by
      simp [tickWrites, hp, ht, hporta, htone, haway', hvsl, freqWrites]
    obtain ⟨t, hexec, hchan, hkept, hran⟩ := tick_only_ran hothers htick hws
    have hlo := withLinear_flo_split hP (q := q) h0 h1 (s.chan c)
    have hhi := withLinear_fhi_split hP (q := q) h0 h1 (s.chan c)
    rw [← hsplit] at hlo hhi
    exact ⟨t, _, _, hexec, hlo, hhi, hchan, hkept, hran⟩

theorem volWithLevel_slide (r : Channel) (d : Int) : ((volWithLevel r.vol ((r.level : Int) + d).toNat).toNat : Int) =
    (r.vol.toNat / 64 * 64 : Nat) + (63 - max 0 (min 63 (63 - (r.vol.toNat % 64 : Nat) + d))) := by
  rw [volWithLevel_toNat, channel_level]
  omega

/-- Settles O43: the volume slide alone is `volWithLevel` of the sum, clamped at both ends. -/
theorem tickAppliesVolumeSlide : Obligations.TickAppliesVolumeSlide := by
  intro s c hothers hporta htone hvsl
  have hp := tickPorta_of_zero s.params hporta
  have ht := tickTone_of_inactive s.params htone
  have hv : (s.chan c).tickVol = { s.chan c with
      vol := volWithLevel (s.chan c).vol (((s.chan c).level : Int) + (s.chan c).vsl.toInt).toNat } := if_pos hvsl
  have htick : (s.chan c).tick s.params = (s.chan c).tickVol := by rw [Channel.tick, hp, ht]
  have hws : tickWrites s.params c (s.chan c) = [(s.params.volAddr c, (s.chan c).tickVol.vol)] := by
    simp only [tickWrites, hp, ht, if_pos hvsl, hporta, htone, Bool.false_eq_true, false_and, ne_eq, not_true_eq_false, if_false,
      List.nil_append]
  rw [hv] at htick hws
  obtain ⟨t, hexec, hchan, hkept, hran⟩ := tick_only_ran hothers htick hws
  exact ⟨t, _, hexec, volWithLevel_slide _ _, hchan, hkept, hran⟩

theorem setChan_self (s : State) (c : Chan) : s.setChan c (s.chan c) = s := by
  simp [State.setChan, State.chan]

/-- Settles O20: after reset every channel holds zeros, so nothing is armed and every read is of a zero shadow. -/
theorem firstCommandsAfterReset : Obligations.FirstCommandsAfterReset := by
  intro P bank ch hP hch
  obtain ⟨c, hc⟩ := exists_chan hch
  have hchan (e : Chan) : (State.resetWith P bank).chan e = Channel.reset := State.resetWith_chan P bank e
  have hlin : getLin c (State.resetWith P bank) = -(P.baseFnum : Int) := by
    rw [getLin, hchan, channel_linear]
    simp [Channel.reset, State.resetWith]
  have hspan := base_span_le hP
  have hvol : getVol c (State.resetWith P bank) = 63 := by
    rw [getVol, hchan]
    rfl
  have hget := exec_getvol hc (State.resetWith P bank)
  rw [hvol] at hget
  refine ⟨⟨_, ?_, exec_getlin hc _⟩, hget, ?_, ?_, ?_⟩
  · rw [hlin, i16_toInt (by omega) (by omega)]
  · rw [exec_tick, foldl_tick_disarmed fun e _ => ?_]
    · rfl
    · rw [hchan]
      exact ⟨rfl, rfl, rfl⟩
  · have hself (e : Chan) : (State.resetWith P bank).setChan e ((State.resetWith P bank).chan e).disarmAll =
        State.resetWith P bank := by
      conv_rhs => rw [← setChan_self (State.resetWith P bank) e]
      rw [hchan]
      rfl
    exact congrArg (finish .ok) (List.foldl_fixed' hself allChannels)
  · obtain ⟨hw, hkeys⟩ := silence_wrote (State.resetWith P bank)
    obtain ⟨htrace, -⟩ := hw.ran .ok
    refine ⟨_, rfl, fun e => ?_, htrace.trans ?_⟩
    · rw [State.respond_chan, hkeys, hchan]
      rfl
    · simp only [hchan]
      rfl

end Sys2Proof.Machine

/-! SUPPORT. Repeated ticks on one channel's registers, and the laws that follow (42_effects.md rules R131, R135 to R137); the round trips
of the linear frequency (40_driver.md rule R82). -/

namespace Sys2Proof.Machine

/-- Ticks act on each channel's registers alone, one after the other. -/
theorem runTicks_chan (k : Nat) (s : State) :
    ∃ t, runTicks k s = .next t ∧ t.params = s.params ∧ ∀ c, t.chan c = (Channel.tick s.params)^[k] (s.chan c) := by
  induction k with
  | zero => exact ⟨s, rfl, rfl, fun _ => rfl⟩
  | succ k ih =>
    obtain ⟨t, hrun, hparams, hchan⟩ := ih
    obtain ⟨hw, hc⟩ := tick_wrote t
    refine ⟨(allChannels.foldl tickChannel t).respond .ok, ?_, ?_, fun c => ?_⟩
    · rw [runTicks, hrun]
      exact exec_tick t
    · rw [State.respond_params, hw.params, hparams]
    · rw [State.respond_chan, hc, hparams, hchan, Function.iterate_succ_apply']

/-- The linear frequency after ticks, from the iterated registers. -/
theorem getLin_of_chan {s t : State} {c : Chan} {r : Channel} (hparams : t.params = s.params) (hc : t.chan c = r) :
    getLin c t = r.linear s.params := by
  rw [getLin, hparams, hc]

/-- Two moves toward the target are one move of their sum. -/
theorem slideTo_slideTo {cur tgt a b : Int} (hb : 0 ≤ b) :
    slideTo (slideTo cur tgt a) tgt b = slideTo cur tgt (a + b) := by
  unfold slideTo
  split_ifs <;> omega

/-- A move of length 0 is none. -/
theorem slideTo_zero (cur tgt : Int) : slideTo cur tgt 0 = cur := by
  unfold slideTo
  split_ifs <;> omega

/-- A move ends between its start and the target. -/
theorem slideTo_between (cur tgt : Int) {a : Int} (ha : 0 ≤ a) :
    min cur tgt ≤ slideTo cur tgt a ∧ slideTo cur tgt a ≤ max cur tgt := by
  unfold slideTo
  split_ifs <;> omega

/-- A move shorter than the distance is not clamped. -/
theorem slideTo_of_lt {cur tgt a : Int} (h : a < |tgt - cur|) :
    slideTo cur tgt a = (if cur < tgt then cur + a else cur - a) ∧ slideTo cur tgt a ≠ tgt := by
  unfold slideTo
  rcases abs_cases (tgt - cur) with ⟨habs, _⟩ | ⟨habs, _⟩
  · split_ifs <;> omega
  · split_ifs <;> omega

/-- A move of at least the distance arrives. -/
theorem slideTo_of_ge {cur tgt a : Int} (h : |tgt - cur| ≤ a) : slideTo cur tgt a = tgt := by
  unfold slideTo
  rcases abs_cases (tgt - cur) with ⟨habs, _⟩ | ⟨habs, _⟩
  · split_ifs <;> omega
  · split_ifs <;> omega

/-- At the target every move stays. -/
theorem slideTo_self {tgt b : Int} (hb : 0 ≤ b) : slideTo tgt tgt b = tgt := by
  unfold slideTo
  split_ifs <;> omega

/-- A tick of an armed tone slide without portamento: one move, and disarmed exactly at the target (rule R132). -/
theorem tick_slides {P : Params} (hP : P.admissible = true) {r : Channel} (hporta : r.porta = 0)
    (hact : r.tsact = decide (r.linear P ≠ r.tstgt.toInt)) (hlo : 0 ≤ slideTo (r.linear P) r.tstgt.toInt r.tsstep.toNat)
    (hhi : slideTo (r.linear P) r.tstgt.toInt r.tsstep.toNat < 8 * P.octaveSpan) :
    (r.tick P).linear P = slideTo (r.linear P) r.tstgt.toInt r.tsstep.toNat ∧
      (r.tick P).tsact = decide (slideTo (r.linear P) r.tstgt.toInt r.tsstep.toNat ≠ r.tstgt.toInt) := by
  obtain ⟨hlin, -, htsact⟩ := tick_frequency P r
  rw [hlin, htsact, tickPorta_of_zero P hporta]
  by_cases harrived : r.linear P = r.tstgt.toInt
  · have hoff : r.tsact = false := by simp [hact, harrived]
    have hstay := slideTo_self (tgt := r.tstgt.toInt) (b := r.tsstep.toNat) (by omega)
    rw [tickTone_of_inactive P hoff, hoff, harrived, hstay]
    simp
  · have hon : r.tsact = true := by simp [hact, harrived]
    rw [tickTone_of_away hon harrived rfl]
    refine ⟨?_, rfl⟩
    exact (linear_withLinear (span_pos hP) (base_span_le hP) _ r).trans (Int.emod_eq_of_lt hlo hhi)

/-- A channel `k` ticks into a tone slide that started at the registers `r` (rule R135). -/
def SlidThrough (P : Params) (r : Channel) (k : Nat) (u : Channel) : Prop :=
  u.porta = 0 ∧ u.tstgt = r.tstgt ∧ u.tsstep = r.tsstep ∧
    u.linear P = slideTo (r.linear P) r.tstgt.toInt (k * r.tsstep.toNat) ∧ u.tsact = decide (u.linear P ≠ r.tstgt.toInt)

theorem slidThrough_iterate {P : Params} (hP : P.admissible = true) {r : Channel} (hporta : r.porta = 0) (hact : r.tsact = true)
    (haway : r.linear P ≠ r.tstgt.toInt)
    (hrange : ∀ j : Nat, 0 ≤ slideTo (r.linear P) r.tstgt.toInt (j * r.tsstep.toNat) ∧
      slideTo (r.linear P) r.tstgt.toInt (j * r.tsstep.toNat) < 8 * P.octaveSpan) (k : Nat) :
    SlidThrough P r k ((Channel.tick P)^[k] r) := by
  induction k with
  | zero =>
    refine ⟨hporta, rfl, rfl, ?_, by simp [hact, haway]⟩
    rw [Nat.cast_zero, Int.zero_mul, slideTo_zero, Function.iterate_zero_apply]
  | succ k ih =>
    rw [Function.iterate_succ_apply']
    generalize (Channel.tick P)^[k] r = u at ih
    obtain ⟨hporta, htgt, hstep, hlin, htsact⟩ := ih
    obtain ⟨hporta', htgt', hstep', -⟩ := tick_effects P u
    have hmove : slideTo (u.linear P) u.tstgt.toInt u.tsstep.toNat =
        slideTo (r.linear P) r.tstgt.toInt ((k + 1 : Nat) * r.tsstep.toNat) := by
      rw [hlin, htgt, hstep, slideTo_slideTo (by positivity)]
      push_cast
      ring_nf
    obtain ⟨hlo, hhi⟩ := hrange (k + 1)
    obtain ⟨hlinear, hflag⟩ := tick_slides hP hporta (htgt ▸ htsact) (hmove ▸ hlo) (hmove ▸ hhi)
    refine ⟨hporta'.trans hporta, htgt'.trans htgt, hstep'.trans hstep, hlinear.trans hmove, ?_⟩
    rw [hflag, hlinear, htgt]

/-- Settles O45: after `k` ticks the channel has made one move of `k` steps, which stays between the start and the target. -/
theorem toneSlideConverges : Obligations.ToneSlideConverges := by
  intro s c k hP hporta hact hstep h0 h1 ht0 ht1 haway
  obtain ⟨t, hrun, hparams, hchan⟩ := runTicks_chan k s
  have hrange (j : Nat) : 0 ≤ slideTo ((s.chan c).linear s.params) (s.chan c).tstgt.toInt (j * (s.chan c).tsstep.toNat) ∧
      slideTo ((s.chan c).linear s.params) (s.chan c).tstgt.toInt (j * (s.chan c).tsstep.toNat) < 8 * s.params.octaveSpan := by
    obtain ⟨hmin, hmax⟩ := slideTo_between ((s.chan c).linear s.params) (s.chan c).tstgt.toInt
      (a := j * (s.chan c).tsstep.toNat) (by positivity)
    exact ⟨(le_min h0 ht0).trans hmin, hmax.trans_lt (max_lt h1 ht1)⟩
  obtain ⟨-, -, -, hlin, htsact⟩ := slidThrough_iterate hP hporta hact haway hrange k
  rw [hlin] at htsact
  have hget := (getLin_of_chan hparams (hchan c)).trans hlin
  rw [← hchan c] at htsact
  refine ⟨t, hrun, fun hlt => ?_, fun hge => ?_⟩
  · obtain ⟨hmoved, hnot⟩ := slideTo_of_lt hlt
    exact ⟨hget.trans hmoved, by rw [htsact]; exact decide_eq_true hnot⟩
  · have harrived := slideTo_of_ge hge
    exact ⟨hget.trans harrived, by rw [htsact]; exact decide_eq_false (not_not.mpr harrived)⟩

/-- Settles O46: moves of length 0 stay where they start, and FXCLR clears the flag. -/
theorem zeroStepNeverArrives : Obligations.ZeroStepNeverArrives := by
  intro s c k hP hporta hact hstep h0 h1 haway
  obtain ⟨t, hrun, hparams, hchan⟩ := runTicks_chan k s
  have hstay (j : Nat) : slideTo ((s.chan c).linear s.params) (s.chan c).tstgt.toInt (j * (s.chan c).tsstep.toNat) =
      (s.chan c).linear s.params := by
    simp only [hstep, BitVec.ofNat_eq_ofNat, BitVec.toNat_ofNat, Nat.zero_mod, Nat.cast_zero, mul_zero, slideTo_zero]
  obtain ⟨-, -, -, hlin, htsact⟩ := slidThrough_iterate hP hporta hact haway (fun j => by rw [hstay]; exact ⟨h0, h1⟩) k
  rw [hlin, hstay, ← hchan c] at htsact
  refine ⟨t, _, hrun, (getLin_of_chan hparams (hchan c)).trans (hlin.trans (hstay k)),
    by rw [htsact]; exact decide_eq_true haway, rfl, ?_⟩
  rw [State.respond_chan, (fxclr_wrote t).2]
  rfl

theorem tick_ramps {P : Params} (hP : P.admissible = true) {r : Channel} (hporta : r.porta ≠ 0) (hact : r.tsact = false) :
    (r.tick P).linear P = (r.linear P + r.porta.toInt) % (8 * P.octaveSpan) ∧ (r.tick P).porta = r.porta ∧
      (r.tick P).tsact = false := by
  obtain ⟨hlin, -, htsact⟩ := tick_frequency P r
  obtain ⟨hkept, -⟩ := tick_effects P r
  have hoff : (r.tickPorta P).tsact = false := (tickPorta_tsact P r).1.trans hact
  rw [tickTone_of_inactive P hoff] at hlin htsact
  refine ⟨?_, hkept, htsact.trans hoff⟩
  rw [hlin, tickPorta_of_ne_zero P hporta, linear_withLinear (span_pos hP) (base_span_le hP)]

theorem ramp_iterate {P : Params} (hP : P.admissible = true) {r : Channel} (hporta : r.porta ≠ 0) (hact : r.tsact = false)
    (k : Nat) : (((Channel.tick P)^[k + 1] r).linear P = (r.linear P + (k + 1) * r.porta.toInt) % (8 * P.octaveSpan)) ∧
      ((Channel.tick P)^[k + 1] r).porta = r.porta ∧ ((Channel.tick P)^[k + 1] r).tsact = false := by
  induction k with
  | zero => simpa using tick_ramps hP hporta hact
  | succ k ih =>
    rw [Function.iterate_succ_apply']
    generalize (Channel.tick P)^[k + 1] r = u at ih
    obtain ⟨hlin, hkept, hoff⟩ := ih
    obtain ⟨hlin', hkept', hoff'⟩ := tick_ramps hP (hkept ▸ hporta) hoff
    refine ⟨?_, hkept'.trans hkept, hoff'⟩
    rw [hlin', hlin, hkept, Int.emod_add_emod]
    push_cast
    ring_nf

/-- Settles O47: each tick adds the delta and reduces, and the reductions are one reduction of the sum. -/
theorem portamentoRampWraps : Obligations.PortamentoRampWraps := by
  intro s c k hP hporta hact
  obtain ⟨t, hrun, hparams, hchan⟩ := runTicks_chan (k + 1) s
  obtain ⟨hlin, -⟩ := ramp_iterate hP hporta hact k
  exact ⟨t, hrun, (getLin_of_chan hparams (hchan c)).trans hlin⟩

/-- One tick moves the level by the delta, clamped to 0..63, and keeps the scaling bits; a delta of 0 is no exception (rule R133). -/
theorem tick_level (P : Params) (r : Channel) :
    ((r.tick P).level : Int) = max 0 (min 63 (r.level + r.vsl.toInt)) ∧ (r.tick P).vol.toNat / 64 = r.vol.toNat / 64 := by
  have hlevel := level_le r
  rw [channel_level, tick_vol]
  by_cases hvsl : r.vsl = 0
  · rw [tickVol_of_zero hvsl, ← channel_level, hvsl]
    refine ⟨?_, rfl⟩
    have h0 : (0 : I16).toInt = 0 := rfl
    omega
  · have hv : r.tickVol.vol = volWithLevel r.vol ((r.level : Int) + r.vsl.toInt).toNat := by rw [Channel.tickVol, if_pos hvsl]
    rw [hv, volWithLevel_toNat]
    omega

theorem level_iterate (P : Params) (r : Channel) (k : Nat) :
    (((Channel.tick P)^[k] r).level : Int) = max 0 (min 63 (r.level + k * r.vsl.toInt)) ∧
      ((Channel.tick P)^[k] r).vol.toNat / 64 = r.vol.toNat / 64 ∧ ((Channel.tick P)^[k] r).vsl = r.vsl := by
  induction k with
  | zero =>
    have hlevel := level_le r
    refine ⟨?_, rfl, rfl⟩
    simp only [Function.iterate_zero_apply]
    omega
  | succ k ih =>
    rw [Function.iterate_succ_apply']
    generalize (Channel.tick P)^[k] r = u at ih
    obtain ⟨hlevel, hscale, hvsl⟩ := ih
    obtain ⟨hlevel', hscale'⟩ := tick_level P u
    obtain ⟨-, -, -, hvsl'⟩ := tick_effects P u
    refine ⟨?_, hscale'.trans hscale, hvsl'.trans hvsl⟩
    rw [hlevel', hlevel, hvsl]
    have hle := level_le r
    have hsum : ((k + 1 : Nat) : Int) * r.vsl.toInt = k * r.vsl.toInt + r.vsl.toInt := by
      push_cast
      ring
    have hsign : (0 ≤ r.vsl.toInt → 0 ≤ k * r.vsl.toInt) ∧ (r.vsl.toInt ≤ 0 → k * r.vsl.toInt ≤ 0) :=
      ⟨fun h => Int.mul_nonneg (by omega) h, fun h => Int.mul_nonpos_of_nonneg_of_nonpos (by omega) h⟩
    rw [hsum]
    generalize (k : Int) * r.vsl.toInt = m at hsign
    omega

/-- Settles O48: clamping after each tick is clamping the sum, since every tick moves the same way. -/
theorem volumeSlideIsClamped : Obligations.VolumeSlideIsClamped := by
  intro s c k
  obtain ⟨t, hrun, -, hchan⟩ := runTicks_chan k s
  obtain ⟨hlevel, hscale, -⟩ := level_iterate s.params (s.chan c) k
  rw [← hchan c] at hlevel hscale
  exact ⟨t, hrun, hlevel, hscale⟩

theorem toLinear_fromLinear {P : Params} (hP : P.admissible = true) (lin : Int) :
    toLinear P (fromLinear P lin).1 (fromLinear P lin).2 = lin % (8 * P.octaveSpan) := by
  have hspan := span_pos hP
  obtain ⟨ho, hf⟩ := fromLinear_split (P := P) (q := lin / P.octaveSpan) (r := lin % P.octaveSpan)
    (Int.emod_nonneg _ (by omega)) (Int.emod_lt_of_pos _ (by omega)) (base_span_le hP)
  rw [Int.mul_comm, Int.mul_ediv_add_emod] at ho hf
  rw [toLinear, ho, hf, emod_eight_mul (by omega)]
  ring

theorem fromLinear_toLinear {P : Params} (hP : P.admissible = true) (oct : BitVec 3) {f : BitVec 10}
    (hlo : P.baseFnum ≤ f.toNat) (hhi : f.toNat < P.baseFnum + P.octaveSpan) : fromLinear P (toLinear P oct f) = (oct, f) := by
  have hsum : toLinear P oct f = oct.toNat * P.octaveSpan + (f.toNat - P.baseFnum) := by
    rw [toLinear]
    ring
  obtain ⟨ho, hf⟩ := fromLinear_split (P := P) (q := oct.toNat) (r := f.toNat - P.baseFnum) (by omega) (by omega) (base_span_le hP)
  rw [← hsum] at ho hf
  have hoct : (fromLinear P (toLinear P oct f)).1 = oct := BitVec.eq_of_toNat_eq (by omega)
  have hfnum : (fromLinear P (toLinear P oct f)).2 = f := BitVec.eq_of_toNat_eq (by omega)
  exact Prod.ext hoct hfnum

/-- Settles O49: the split of a number into octave and offset is unique, and the octave is kept modulo 8. -/
theorem linearFrequencyRoundTrips : Obligations.LinearFrequencyRoundTrips := by
  intro P hP
  refine ⟨fun oct f hlo hhi => fromLinear_toLinear hP oct hlo hhi, fun lin h0 h1 => ?_, fun lin => ?_⟩
  · rw [toLinear_fromLinear hP, Int.emod_eq_of_lt h0 h1]
  · rw [toLinear_fromLinear hP, floorMod_eq]

end Sys2Proof.Machine
